-- ==== Sys2Proof/Word.lean ====
section
/-! DEFINITION. The word types of the core (00_scope.md R10): bytes, 32-bit words, 16-bit addresses and
immediates, and register indices. -/

namespace Sys2Proof

/-- `u8`: one memory cell, one device register, an opcode, a syscall number. -/
abbrev Byte := BitVec 8

/-- `u32`: a general register, a data word, an instruction word (`XLEN`, `ILEN` of R10). -/
abbrev Word := BitVec 32

/-- `u16`: an address, the program counter (`PCW` of R10). -/
abbrev Addr := BitVec 16

/-- `u16`: the immediate field of an instruction. -/
abbrev Imm := BitVec 16

/-- A register index, `0 .. 15`: a 4-bit register field admits nothing else (10_state.md R15, 30_encoding.md R69). -/
abbrev RegIdx := Fin 16

end Sys2Proof
end

