-- ==== Sys2Proof/Config.lean ====
section
/-! DEFINITION. What is fixed for one machine and not by the core: the parameters of 00_scope.md R10 and R11, the
types that describe the agents outside the core (bindings, the calls a syscall handler may make), and the free
values those agents supply. -/

namespace Sys2Proof.Config

/-- `MEMSIZE` (R10): the number of byte cells; every address is below it. -/
abbrev memSize : Nat := 0x10000

/-- The length of an instruction in bytes, which is also the alignment of a word (R10). -/
abbrev wordBytes : Nat := 4

/-- The value of `pc` after reset (R10, 70_reset_and_hazards.md R151). -/
def resetPc : Addr := 0x0000#16

/-- The graphics block has 256 words (20_memory.md R44, R52). -/
def gpuLength : BitVec 16 := 0x0400#16

/-- The disk-controller block has 64 words (20_memory.md R44, R52). -/
def fdcLength : BitVec 16 := 0x0100#16

end Sys2Proof.Config

namespace Sys2Proof

/-- The number that names a device behind a binding. Its implementation is out of scope (00_scope.md R5b). -/
abbrev DeviceId := Nat

/-- The number that names a syscall handler. Its implementation is out of scope (00_scope.md R5c). -/
abbrev HandlerId := Nat

/-- One entry of `MMIO_TABLE`: it covers `base .. base + length - 1` (20_memory.md R44). -/
structure Binding where
  base : BitVec 16
  length : BitVec 16
  device : DeviceId
  deriving DecidableEq, Repr

/-- A direct call of a component operation: what the host may call between steps and the syscall handler during its
invocation (20_memory.md R63, 60_exceptions.md R148). An index or an address is an integer of any size, since such
a caller may present one outside the range (20_memory.md R36). The `bus…` calls reach RAM only, the `mem…` calls go
through the MMIO Router (20_memory.md R35). No call here reaches `pc`, `halted`, `running`, `last_fault` or
`handler`: that is the handler's scope (44_system.md R102). -/
inductive DirectCall where
  | get (index : Int)
  | set (index : Int) (value : Word)
  | busReadByte (addr : Int)
  | busWriteByte (addr : Int) (value : Byte)
  | busReadWord (addr : Int)
  | busWriteWord (addr : Int) (value : Word)
  | busLoadBulk (addr : Int) (bytes : List Byte)
  | memReadByte (addr : Int)
  | memWriteByte (addr : Int) (value : Byte)
  | memReadWord (addr : Int)
  | memWriteWord (addr : Int) (value : Word)
  | dumpMemory (start : Int) (length : Nat)
  deriving DecidableEq, Repr, Inhabited

/-- What one invocation of a syscall handler comes to: it makes some component calls, in its own order, and returns
(44_system.md R101, R102); or it never returns (93_implementation_defined.md section 2: the step never completes). -/
inductive HandlerReply where
  | returns (calls : List DirectCall)
  | neverReturns
  deriving DecidableEq, Repr, Inhabited

namespace Config

/-- The platform the source describes: the two register blocks at bases the model takes as arguments, since the spec
gives none (92_eei_decisions.md D8). -/
def platformTable (gpu fdc : DeviceId) (gpuBase fdcBase : BitVec 16) : List Binding :=
  [⟨gpuBase, gpuLength, gpu⟩, ⟨fdcBase, fdcLength, fdc⟩]

/-- FREE VALUE: the byte a device answers when the state does not already hold its answer; the argument counts the
draws, so that no two draws of a run are tied together (20_memory.md R47, 92_eei_decisions.md D9; log entry 4). -/
opaque deviceByte : Nat → Byte

/-- FREE VALUE: what a connected handler does when the state does not already hold its reply; the argument counts the
draws (44_system.md R102, 92_eei_decisions.md D10; log entry 5). -/
opaque handlerReply : Nat → HandlerReply

end Config
end Sys2Proof
end

