-- ==== Sys2Proof/Syntax.lean ====
section
/-! DEFINITION. The seven instructions of the opcode table (30_encoding.md R70) and the transient decoded fields of
the one format W32 (R65, 10_state.md R30). -/

namespace Sys2Proof

/-- The fields of format W32 (30_encoding.md R65); they tile the instruction word. -/
structure Fields where
  opcode : Byte
  reg1 : RegIdx
  reg2 : RegIdx
  imm : Imm
  deriving DecidableEq, Repr

/-- The instruction set (30_encoding.md R70). An operand stands here only where the instruction uses the field; the
other fields are ignored (R71). -/
inductive Instr where
  /-- `NOP` (R88). -/
  | nop
  /-- `LOAD reg1,[reg2+imm]` (R90). -/
  | load (reg1 reg2 : RegIdx) (imm : Imm)
  /-- `STORE reg1,[reg2+imm]` (R91). -/
  | store (reg1 reg2 : RegIdx) (imm : Imm)
  /-- `ADD reg1,reg2` (R95). -/
  | add (reg1 reg2 : RegIdx)
  /-- `SUB reg1,reg2` (R96). -/
  | sub (reg1 reg2 : RegIdx)
  /-- `SYSCALL` (R98). -/
  | syscall
  /-- `HALT` (R99). -/
  | halt
  deriving DecidableEq, Repr

end Sys2Proof
end

