-- ==== Sys2Proof/WellFormed.lean ====
section
/-! DEFINITION. Well-formedness. Every term of `Instr` is well formed by its types: a register field is a `Fin 16` and
an immediate 16 bits, and every value of each is legal (30_encoding.md R69). What can be ill formed is an instruction
word (not canonical, 30_encoding.md R71, R76) and a binding table (20_memory.md R44). -/

namespace Sys2Proof

/-- The canonical form of decoded fields: a listed opcode with zero in every field the instruction does not use
(30_encoding.md R71, R76). A non-canonical word of a listed opcode still executes; a toolchain should not emit it. -/
def Fields.canonical (f : Fields) : Bool :=
  if f.opcode = 0x00#8 ∨ f.opcode = 0x05#8 ∨ f.opcode = 0xFF#8 then
    f.reg1 == 0 && f.reg2 == 0 && f.imm == 0
  else if f.opcode = 0x03#8 ∨ f.opcode = 0x04#8 then
    f.imm == 0
  else
    f.opcode == 0x01#8 || f.opcode == 0x02#8

/-- R44 item 1: the range is not empty. -/
def Binding.nonEmpty (b : Binding) : Bool :=
  decide (0 < b.length.toNat)

/-- R44 item 2: the range does not run past the top of memory. -/
def Binding.insideSpace (b : Binding) : Bool :=
  decide (b.base.toNat + b.length.toNat ≤ Config.memSize)

/-- R44 item 3: the range is a whole number of aligned words. -/
def Binding.wholeWords (b : Binding) : Bool :=
  decide (b.base.toNat % Config.wordBytes = 0) && decide (b.length.toNat % Config.wordBytes = 0)

/-- R44 item 4, for two bindings: their ranges share no address. -/
def Binding.disjoint (b c : Binding) : Bool :=
  decide (b.base.toNat + b.length.toNat ≤ c.base.toNat) || decide (c.base.toNat + c.length.toNat ≤ b.base.toNat)

/-- A well-formed `MMIO_TABLE` (20_memory.md R44, 92_eei_decisions.md D7). -/
def tableWellFormed (t : List Binding) : Bool :=
  t.all (fun b => b.nonEmpty && b.insideSpace && b.wholeWords) && decide (t.Pairwise fun b c => b.disjoint c = true)

end Sys2Proof
end

