-- ==== Sys2Proof/Decode.lean ====
section
/-! DEFINITION. Byte order of words, the decoder (total: it answers an instruction or names why not) and the encoder,
both from 30_encoding.md. -/

namespace Sys2Proof

/-! ### Words and their four bytes (20_memory.md R39) -/

/-- `{b0, b1, b2, b3}`: four bytes as a word, `b0` most significant (00_scope.md section 6.1). -/
def packWord (b0 b1 b2 b3 : Byte) : Word := b0 ++ b1 ++ b2 ++ b3

/-- `v[31:24]`, the byte at the lowest address. -/
def byte0 (v : Word) : Byte := v.extractLsb' 24 8

/-- `v[23:16]`. -/
def byte1 (v : Word) : Byte := v.extractLsb' 16 8

/-- `v[15:8]`. -/
def byte2 (v : Word) : Byte := v.extractLsb' 8 8

/-- `v[7:0]`, the byte at the highest address. -/
def byte3 (v : Word) : Byte := v.extractLsb' 0 8

/-- A word as it lies in memory, lowest address first (20_memory.md R39, 30_encoding.md R67). -/
def bytesOfWord (v : Word) : List Byte := [byte0 v, byte1 v, byte2 v, byte3 v]

/-! ### Decoding -/

/-- Why bytes are no instruction. -/
inductive DecodeError where
  /-- Fewer than the four bytes of an instruction (30_encoding.md R64). Never raised by a fetch, which reads a word. -/
  | truncated
  /-- An opcode that is not in the ISA table (30_encoding.md R72), the reserved `0x06` to `0x08` among them (R73). -/
  | unknownOpcode (opcode : Byte)
  deriving DecidableEq, Repr

/-- `Decode(w)`: the fields of a word (30_encoding.md R65, R66). -/
def fieldsOf (w : Word) : Fields where
  opcode := w.extractLsb' 24 8
  reg1 := (w.extractLsb' 20 4).toFin
  reg2 := (w.extractLsb' 16 4).toFin
  imm := w.extractLsb' 0 16

/-- The instruction the fields stand for: the opcode alone selects it and fields it does not use are ignored
(30_encoding.md R70, R71); any other opcode is rejected by name (R72). -/
def decodeFields (f : Fields) : Except DecodeError Instr :=
  if f.opcode = 0x00#8 then .ok .nop
  else if f.opcode = 0x01#8 then .ok (.load f.reg1 f.reg2 f.imm)
  else if f.opcode = 0x02#8 then .ok (.store f.reg1 f.reg2 f.imm)
  else if f.opcode = 0x03#8 then .ok (.add f.reg1 f.reg2)
  else if f.opcode = 0x04#8 then .ok (.sub f.reg1 f.reg2)
  else if f.opcode = 0x05#8 then .ok .syscall
  else if f.opcode = 0xFF#8 then .ok .halt
  else .error (.unknownOpcode f.opcode)

/-- The instruction a word stands for. -/
def decodeWord (w : Word) : Except DecodeError Instr := decodeFields (fieldsOf w)

/-- The instruction at the head of a byte sequence, most significant byte first (30_encoding.md R67). -/
def decodeBytes : List Byte → Except DecodeError Instr
  | b0 :: b1 :: b2 :: b3 :: _ => decodeWord (packWord b0 b1 b2 b3)
  | _ => .error .truncated

/-- The decoder on an instruction whose bits are numbered as spec/opcode_table.json numbers them; the bits from
`nbits` up are zero. -/
def decodeTableWord (nbits w : Nat) : Option Instr :=
  (decodeBytes (bytesOfWord (BitVec.ofNat 32 (w % 2 ^ nbits)))).toOption

/-! ### Encoding (30_encoding.md R76) -/

/-- `opcode << 24 | reg1 << 20 | reg2 << 16 | imm`. -/
def wordOfFields (f : Fields) : Word :=
  f.opcode ++ BitVec.ofFin (w := 4) f.reg1 ++ BitVec.ofFin (w := 4) f.reg2 ++ f.imm

/-- The canonical fields of an instruction: zero in every field it does not use. -/
def encodeFields : Instr → Fields
  | .nop => ⟨0x00#8, 0, 0, 0#16⟩
  | .load reg1 reg2 imm => ⟨0x01#8, reg1, reg2, imm⟩
  | .store reg1 reg2 imm => ⟨0x02#8, reg1, reg2, imm⟩
  | .add reg1 reg2 => ⟨0x03#8, reg1, reg2, 0#16⟩
  | .sub reg1 reg2 => ⟨0x04#8, reg1, reg2, 0#16⟩
  | .syscall => ⟨0x05#8, 0, 0, 0#16⟩
  | .halt => ⟨0xFF#8, 0, 0, 0#16⟩

/-- The canonical instruction word. -/
def encode (i : Instr) : Word := wordOfFields (encodeFields i)

/-- The instruction's bytes as they lie in memory. -/
def encodeBytes (i : Instr) : List Byte := bytesOfWord (encode i)

end Sys2Proof
end

