-- ==== Sys2Proof/Machine/State.lean ====
section
/-! DEFINITION. The state of the machine as plain data (10_state.md), what left its ports, the reasons a step can
stop, and the state after reset. -/

namespace Sys2Proof.Machine

/-- The six fault kinds of the core (60_exceptions.md R110). A fault of this kind is no stop of the model: the core
takes fault entry (R122), which is a next state, or the fault is returned to a direct caller (R148). -/
inductive FaultKind where
  | invalidRegisterIndex
  | invalidAddress
  | addressOutOfBounds
  | unalignedAccess
  | unknownOpcode
  | insufficientSpace
  deriving DecidableEq, Repr

/-- The three-valued view of the run flags (10_state.md R22). -/
inductive RunState where
  | stopped
  | running
  | halted
  deriving DecidableEq, Repr

/-- RAM as the cells whose content differs from what an unlisted address holds, addresses strictly rising
(10_state.md R25). -/
abbrev Memory := List Host.Cell

/-- An event on the optional trace port (40_execution_cycle.md R85). -/
inductive TraceEvent where
  /-- One per decoded instruction, unknown opcodes included. -/
  | decoded (pc : Addr) (word : Word) (fields : Fields)
  /-- A SYSCALL found no handler (44_system.md R103). -/
  | syscallUnhandled (n : Byte)
  deriving DecidableEq, Repr

/-- A transaction on a device register port (20_memory.md R47) or on the syscall port (44_system.md R101). -/
inductive PortEvent where
  /-- `read_register(offset)` of the device, and its answer. -/
  | devRead (device : DeviceId) (offset : BitVec 16) (answer : Byte)
  /-- `write_register(offset, value)` of the device. -/
  | devWrite (device : DeviceId) (offset : BitVec 16) (value : Byte)
  /-- The handler was invoked with the syscall number. -/
  | syscall (handler : HandlerId) (n : Byte)
  deriving DecidableEq, Repr

/-- What a direct call of a component operation returns. -/
inductive CallResult where
  | done
  | byte (v : Byte)
  | word (v : Word)
  | bytes (vs : List Byte)
  deriving DecidableEq, Repr

/-- The whole machine. The first seven fields are the core's state (10_state.md); `mmioTable` is the host's wiring,
which no step changes (R26); the rest is the model's own record of the agents outside the core. -/
structure State where
  /-- `x[0] .. x[15]` (R12). -/
  regs : Vector Word 16
  /-- The program counter (R16). -/
  pc : Addr
  /-- R20. -/
  halted : Bool
  /-- R21. -/
  running : Bool
  /-- `last_fault` (R23). -/
  lastFault : Option FaultKind
  /-- The syscall handler slot (R24). -/
  handler : Option HandlerId
  /-- `RAM[0 .. 0xFFFF]` (R25). -/
  ram : Memory
  /-- `MMIO_TABLE` (R26). -/
  mmioTable : List Binding
  /-- Whether an observer is on the trace port (40_execution_cycle.md R85). -/
  traceAttached : Bool
  /-- What the trace port emitted, oldest first. -/
  traceLog : List TraceEvent
  /-- What the device and syscall ports carried, oldest first. -/
  portLog : List PortEvent
  /-- Device answers already determined, next first; past its end the answers are free values. -/
  deviceReplies : List Byte
  /-- Handler replies already determined, next first; past its end the replies are free values. -/
  handlerReplies : List HandlerReply
  /-- How many free values have been drawn. -/
  draws : Nat
  deriving DecidableEq, Repr

/-- Why the machine stops without a next state. (The core's own faults are next states: `FaultKind`.) -/
inductive Fault where
  /-- Raised by SYSCALL when the connected handler never returns: the step never completes
  (93_implementation_defined.md section 2, treatment `stuck`). Safe: nothing is claimed past it. -/
  | handlerNeverReturns
  deriving DecidableEq, Repr

/-- Why the model gives no meaning. -/
inductive Refusal where
  /-- Raised by `exec`'s arm of an instruction that has no meaning yet. Safe. -/
  | notModelled (mnemonic : String)
  /-- Raised by `step` and by every host operation on a binding table that is not well formed (20_memory.md R44, 92_eei_decisions.md D7:
  such a table is refused). Safe. -/
  | illFormedMmioTable
  /-- Raised by the host's direct `execute` on a halted core (40_execution_cycle.md R78, 92_eei_decisions.md D20:
  outside the spec). Safe. -/
  | executeWhileHalted
  deriving DecidableEq, Repr

/-- The machine after creation, which is also what the reset input leaves of a fresh machine (10_state.md R31,
70_reset_and_hazards.md R150, R151). Log entries 1, 2, 4, 5, 16, 17 name the fields the spec gives no value for. -/
def State.reset : State where
  regs := Vector.replicate 16 0x00000000#32
  pc := Config.resetPc
  halted := false
  running := false
  lastFault := none
  handler := none
  ram := []
  mmioTable := []
  traceAttached := false
  traceLog := []
  portLog := []
  deviceReplies := []
  handlerReplies := []
  draws := 0

end Sys2Proof.Machine
end

