-- ==== Sys2Proof/Machine/Ops.lean ====
section
/-! DEFINITION. The operations every instruction and every host port is built from: registers, RAM cells, the raw
Memory Bus, the device ports, the MMIO Router, fault entry, the trace port, and the syscall hand-off. -/

namespace Sys2Proof.Machine

/-! ### Registers (10_state.md R12 to R15) -/

/-- `x[i]`. No register is hardwired (R13). -/
def State.getReg (s : State) (i : RegIdx) : Word := s.regs[i]

/-- `x[i] <- v`. -/
def State.setReg (s : State) (i : RegIdx) (v : Word) : State :=
  { s with regs := s.regs.set i v }

/-! ### RAM cells (10_state.md R25) -/

/-- What a cell that the list does not name holds: memory is zero after creation and after an explicit clear
(10_state.md R25, R31). -/
def Memory.unlisted : Byte := 0x00#8

/-- `RAM[a]`. -/
def Memory.read : Memory → Nat → Byte
  | [], _ => Memory.unlisted
  | (a, v) :: m, b => if b < a then Memory.unlisted else if b = a then v else Memory.read m b

/-- `RAM[b] <- w`, in canonical form: the value of an unlisted cell is not listed. -/
def Memory.write : Memory → Nat → Byte → Memory
  | [], b, w => if w = Memory.unlisted then [] else [(b, w)]
  | (a, v) :: m, b, w =>
    if b < a then (if w = Memory.unlisted then (a, v) :: m else (b, w) :: (a, v) :: m)
    else if b = a then (if w = Memory.unlisted then m else (b, w) :: m)
    else (a, v) :: Memory.write m b w

/-- The canonical form from address `lo` on: addresses strictly rising, inside the address space, and no cell listed
that holds what an unlisted one does. -/
def Memory.wfFrom (lo : Nat) : Memory → Bool
  | [] => true
  | (a, v) :: m =>
    decide (lo ≤ a) && decide (a < Config.memSize) && decide (v ≠ Memory.unlisted) && Memory.wfFrom (a + 1) m

/-- The canonical form of a memory. -/
def Memory.wf (m : Memory) : Bool := Memory.wfFrom 0 m

/-- Four cells as a word, most significant byte at the lowest address (20_memory.md R39). -/
def Memory.readWord (m : Memory) (a : Nat) : Word :=
  packWord (m.read a) (m.read (a + 1)) (m.read (a + 2)) (m.read (a + 3))

/-- A word into four cells, most significant byte at the lowest address (20_memory.md R39). -/
def Memory.writeWord (m : Memory) (a : Nat) (v : Word) : Memory :=
  (((m.write a (byte0 v)).write (a + 1) (byte1 v)).write (a + 2) (byte2 v)).write (a + 3) (byte3 v)

/-- Bytes into consecutive cells, ascending (20_memory.md R41). -/
def Memory.writeBytes (m : Memory) (a : Nat) : List Byte → Memory
  | [] => m
  | b :: bs => Memory.writeBytes (m.write a b) (a + 1) bs

/-- `length` consecutive cells, ascending (60_exceptions.md R147). -/
def Memory.readBytes (m : Memory) (a : Nat) : Nat → List Byte
  | 0 => []
  | n + 1 => m.read a :: Memory.readBytes m (a + 1) n

/-! ### Address checks (20_memory.md R36, R38) -/

/-- The bounds check, the first check of every accessor (R36). -/
def byteAddress (addr : Int) : Except FaultKind Nat :=
  if addr < 0 ∨ (Config.memSize : Int) ≤ addr then .error .addressOutOfBounds else .ok addr.toNat

/-- The checks of a word access: bounds, then alignment (R36, R38). -/
def wordAddress (addr : Int) : Except FaultKind Nat :=
  match byteAddress addr with
  | .error f => .error f
  | .ok a => if a % Config.wordBytes ≠ 0 then .error .unalignedAccess else .ok a

/-! ### The raw Memory Bus (20_memory.md R37, R40, R41) -/

def busReadByte (m : Memory) (addr : Int) : Except FaultKind Byte :=
  match byteAddress addr with
  | .error f => .error f
  | .ok a => .ok (m.read a)

def busWriteByte (m : Memory) (addr : Int) (v : Byte) : Except FaultKind Memory :=
  match byteAddress addr with
  | .error f => .error f
  | .ok a => .ok (m.write a v)

def busReadWord (m : Memory) (addr : Int) : Except FaultKind Word :=
  match wordAddress addr with
  | .error f => .error f
  | .ok a => .ok (m.readWord a)

def busWriteWord (m : Memory) (addr : Int) (v : Word) : Except FaultKind Memory :=
  match wordAddress addr with
  | .error f => .error f
  | .ok a => .ok (m.writeWord a v)

/-- Both checks come before the first cell is written, and the copy never reaches a device (R41, D18). -/
def busLoadBulk (m : Memory) (addr : Int) (bytes : List Byte) : Except FaultKind Memory :=
  match byteAddress addr with
  | .error f => .error f
  | .ok a => if Config.memSize < a + bytes.length then .error .insufficientSpace else .ok (m.writeBytes a bytes)

/-- Raw cells for inspection; never a device (60_exceptions.md R147, D19). -/
def busDump (m : Memory) (start : Int) (length : Nat) : Except FaultKind (List Byte) :=
  match byteAddress start with
  | .error f => .error f
  | .ok a => if Config.memSize < a + length then .error .addressOutOfBounds else .ok (m.readBytes a length)

/-! ### Output ports (00_scope.md section 6.3, `emit`) -/

/-- An event on the trace port, if an observer is attached (40_execution_cycle.md R85). -/
def State.emitTrace (s : State) (e : TraceEvent) : State :=
  if s.traceAttached then { s with traceLog := s.traceLog ++ [e] } else s

/-- A transaction on a device or syscall port. -/
def State.emitPort (s : State) (e : PortEvent) : State :=
  { s with portLog := s.portLog ++ [e] }

/-! ### The device register port (20_memory.md R47) -/

/-- The byte the next device read answers: any byte. Log entry 4. -/
def State.nextDeviceByte (s : State) : Byte × State :=
  match s.deviceReplies with
  | b :: bs => (b, { s with deviceReplies := bs })
  | [] => (Config.deviceByte s.draws, { s with draws := s.draws + 1 })

/-- `DevRead(d, off)`. It never faults (R47). -/
def State.devRead (s : State) (d : DeviceId) (off : BitVec 16) : Byte × State :=
  (s.nextDeviceByte.1, s.nextDeviceByte.2.emitPort (.devRead d off s.nextDeviceByte.1))

/-- `DevWrite(d, off, v)`. It always completes (R47). -/
def State.devWrite (s : State) (d : DeviceId) (off : BitVec 16) (v : Byte) : State :=
  s.emitPort (.devWrite d off v)

/-- The four register reads of a routed word read, in ascending order, composed big-endian (R48, D5, D6). -/
def State.devReadWord (s : State) (d : DeviceId) (off : BitVec 16) : Word × State :=
  let r0 := s.devRead d off
  let r1 := r0.2.devRead d (off + 1)
  let r2 := r1.2.devRead d (off + 2)
  let r3 := r2.2.devRead d (off + 3)
  (packWord r0.1 r1.1 r2.1 r3.1, r3.2)

/-- The four register writes of a routed word write, in ascending order, decomposed big-endian (R49, D5, D6). -/
def State.devWriteWord (s : State) (d : DeviceId) (off : BitVec 16) (v : Word) : State :=
  (((s.devWrite d off (byte0 v)).devWrite d (off + 1) (byte1 v)).devWrite d (off + 2) (byte2 v)).devWrite
    d (off + 3) (byte3 v)

/-! ### The MMIO Router (20_memory.md R43 to R50) -/

/-- `base <= addr < base + length` (R44, R45). -/
def Binding.covers (b : Binding) (a : Nat) : Bool :=
  decide (b.base.toNat ≤ a) && decide (a < b.base.toNat + b.length.toNat)

/-- `Lookup(addr)`: the first binding that covers the address (R45). -/
def lookup (t : List Binding) (a : Nat) : Option Binding :=
  t.find? fun b => Binding.covers b a

/-- `offset = addr - base` (R46). -/
def Binding.offset (b : Binding) (a : Nat) : BitVec 16 :=
  BitVec.ofNat 16 (a - b.base.toNat)

/-- `MemRead(addr, 1)` (R46). -/
def State.memReadByte (s : State) (addr : Int) : Except FaultKind (Byte × State) :=
  match byteAddress addr with
  | .error f => .error f
  | .ok a =>
    match lookup s.mmioTable a with
    | some b => .ok (s.devRead b.device (Binding.offset b a))
    | none => .ok (s.ram.read a, s)

/-- `MemWrite(addr, 1, v)` (R46). -/
def State.memWriteByte (s : State) (addr : Int) (v : Byte) : Except FaultKind State :=
  match byteAddress addr with
  | .error f => .error f
  | .ok a =>
    match lookup s.mmioTable a with
    | some b => .ok (s.devWrite b.device (Binding.offset b a) v)
    | none => .ok { s with ram := s.ram.write a v }

/-- `MemRead(addr, 4)`: the checks come before the table is consulted, and the table is consulted on the address of
the first byte only (R45, R48, D4). -/
def State.memReadWord (s : State) (addr : Int) : Except FaultKind (Word × State) :=
  match wordAddress addr with
  | .error f => .error f
  | .ok a =>
    match lookup s.mmioTable a with
    | some b => .ok (s.devReadWord b.device (Binding.offset b a))
    | none => .ok (s.ram.readWord a, s)

/-- `MemWrite(addr, 4, v)`: RAM is not written when a binding matches (R49, R50, D4). -/
def State.memWriteWord (s : State) (addr : Int) (v : Word) : Except FaultKind State :=
  match wordAddress addr with
  | .error f => .error f
  | .ok a =>
    match lookup s.mmioTable a with
    | some b => .ok (s.devWriteWord b.device (Binding.offset b a) v)
    | none => .ok { s with ram := s.ram.writeWord a v }

/-! ### Fault entry (60_exceptions.md R122) -/

/-- The core's own operation raised a fault: it halts, stops running and retains the kind, and nothing else changes.
`running <- false` is the spec's decision D12, the retained form its decision D13. There is no return from it but the
reset input (R125). -/
def State.faultEntry (s : State) (f : FaultKind) : State :=
  { s with halted := true, running := false, lastFault := some f }

/-- The numeric code of a retained fault (60_exceptions.md R118, D14); 0 is no fault. -/
def faultCode : Option FaultKind → Nat
  | none => 0
  | some .invalidRegisterIndex => 1
  | some .invalidAddress => 2
  | some .addressOutOfBounds => 3
  | some .unalignedAccess => 4
  | some .unknownOpcode => 5
  | some .insufficientSpace => 6

/-! ### Direct calls of component operations (20_memory.md R63, 60_exceptions.md R144, R147, R148) -/

/-- The register a host or handler index names (10_state.md R15, 60_exceptions.md R111). -/
def registerIndex (index : Int) : Except FaultKind RegIdx :=
  if 0 ≤ index ∧ index < 16 then .ok (Fin.ofNat 16 index.toNat) else .error .invalidRegisterIndex

/-- One direct call: its result and what it changes, or the fault that is returned to the caller, with nothing
changed (R148). -/
def State.directCall (s : State) : DirectCall → Except FaultKind (CallResult × State)
  | .get index => (registerIndex index).map fun i => (.word (s.getReg i), s)
  | .set index v => (registerIndex index).map fun i => (.done, s.setReg i v)
  | .busReadByte addr => (busReadByte s.ram addr).map fun v => (.byte v, s)
  | .busWriteByte addr v => (busWriteByte s.ram addr v).map fun m => (.done, { s with ram := m })
  | .busReadWord addr => (busReadWord s.ram addr).map fun v => (.word v, s)
  | .busWriteWord addr v => (busWriteWord s.ram addr v).map fun m => (.done, { s with ram := m })
  | .busLoadBulk addr bytes => (busLoadBulk s.ram addr bytes).map fun m => (.done, { s with ram := m })
  | .memReadByte addr => (s.memReadByte addr).map fun r => (.byte r.1, r.2)
  | .memWriteByte addr v => (s.memWriteByte addr v).map fun t => (.done, t)
  | .memReadWord addr => (s.memReadWord addr).map fun r => (.word r.1, r.2)
  | .memWriteWord addr v => (s.memWriteWord addr v).map fun t => (.done, t)
  | .dumpMemory start length => (busDump s.ram start length).map fun vs => (.bytes vs, s)

/-- The state a direct call leaves: a call that faults changes nothing (R148). -/
def State.afterCall (s : State) (c : DirectCall) : State :=
  match s.directCall c with
  | .ok r => r.2
  | .error _ => s

/-- The calls of one caller, in its order. -/
def State.performCalls (s : State) : List DirectCall → State
  | [] => s
  | c :: cs => (s.afterCall c).performCalls cs

/-! ### The syscall port (44_system.md R101, R102) -/

/-- What the connected handler does at this invocation: anything in its scope. Log entry 5. -/
def State.nextHandlerReply (s : State) : HandlerReply × State :=
  match s.handlerReplies with
  | r :: rs => (r, { s with handlerReplies := rs })
  | [] => (Config.handlerReply s.draws, { s with draws := s.draws + 1 })

/-- `emit Syscall(n); Invoke(handler, n)`: one synchronous invocation (R101); its effects are its own calls (R102). -/
def State.invokeHandler (s : State) (h : HandlerId) (n : Byte) : Host.Outcome State Fault Refusal :=
  match (s.emitPort (.syscall h n)).nextHandlerReply with
  | (.returns calls, t) => .next (t.performCalls calls)
  | (.neverReturns, _) => .fault .handlerNeverReturns

end Sys2Proof.Machine
end

