-- ==== Sys2Proof/Machine/Operands.lean ====
section
/-! DEFINITION. Every operand form: the one addressing mode (42_load_store.md R89) and the implicit operand of
SYSCALL (44_system.md R100). A register operand is `State.getReg`. -/

namespace Sys2Proof.Machine

/-- `EA(reg2, imm) = (x[reg2] + zext_32(imm)) & 0xFFFF` (R89): the immediate is zero-extended (30_encoding.md R68). -/
def State.effectiveAddress (s : State) (reg2 : RegIdx) (imm : Imm) : Addr :=
  (s.getReg reg2 + imm.zeroExtend 32).truncate 16

/-- An address the core presents: always in range (20_memory.md R53). -/
def coreAddress (a : Addr) : Int := (a.toNat : Int)

/-- `x[0] & 0xFF` (R100). -/
def State.syscallNumber (s : State) : Byte := (s.getReg 0).truncate 8

end Sys2Proof.Machine
end

