-- ==== Sys2Proof/Machine/Arithmetic.lean ====
section
/-! DEFINITION. The meanings of ADD and SUB (43_arithmetic.md): modulo 2^32, no flag, no fault (R94). -/

namespace Sys2Proof.Machine

/-- ADD (R95). -/
def execAdd (reg1 reg2 : RegIdx) (s : State) : Host.Outcome State Fault Refusal :=
  .next (s.setReg reg1 (s.getReg reg1 + s.getReg reg2))

/-- SUB (R96). -/
def execSub (reg1 reg2 : RegIdx) (s : State) : Host.Outcome State Fault Refusal :=
  .next (s.setReg reg1 (s.getReg reg1 - s.getReg reg2))

end Sys2Proof.Machine
end

