-- ==== Sys2Proof/Machine/LoadStore.lean ====
section
/-! DEFINITION. The meanings of LOAD and STORE (42_load_store.md). -/

namespace Sys2Proof.Machine

/-- LOAD (R90): a routed word read at the effective address, or fault entry with nothing else changed. -/
def execLoad (reg1 reg2 : RegIdx) (imm : Imm) (s : State) : Host.Outcome State Fault Refusal :=
  match s.memReadWord (coreAddress (s.effectiveAddress reg2 imm)) with
  | .error f => .next (s.faultEntry f)
  | .ok (v, t) => .next (t.setReg reg1 v)

/-- STORE (R91): a routed word write at the effective address, or fault entry with nothing else changed. -/
def execStore (reg1 reg2 : RegIdx) (imm : Imm) (s : State) : Host.Outcome State Fault Refusal :=
  match s.memWriteWord (coreAddress (s.effectiveAddress reg2 imm)) (s.getReg reg1) with
  | .error f => .next (s.faultEntry f)
  | .ok t => .next t

end Sys2Proof.Machine
end

