-- ==== Sys2Proof/Machine/NopFamily.lean ====
section
/-! DEFINITION. The meaning of NOP (41_nop.md). Every meaning is the execute stage only: the fetch before it and the
pc advance after it are the instruction cycle's (40_execution_cycle.md R78, R79). -/

namespace Sys2Proof.Machine

/-- NOP (R88): no effect. -/
def execNop (s : State) : Host.Outcome State Fault Refusal :=
  .next s

end Sys2Proof.Machine
end

