-- ==== Sys2Proof/Machine/Flags.lean ====
section
/-! DEFINITION. The run flags. There is no condition code: ADD and SUB set nothing (10_state.md R27). -/

namespace Sys2Proof.Machine

/-- The view of the two flags (10_state.md R22, 90_conflicts.md C3). -/
def State.runState (s : State) : RunState :=
  if s.halted then .halted else if s.running then .running else .stopped

/-- `halted <- true; running <- false`, and not `last_fault` (44_system.md R99). -/
def State.setHalted (s : State) : State :=
  { s with halted := true, running := false }

end Sys2Proof.Machine
end

