-- ==== Sys2Proof/Machine/System.lean ====
section
/-! DEFINITION. The meanings of SYSCALL and HALT (44_system.md). -/

namespace Sys2Proof.Machine

/-- SYSCALL (R98): the connected handler is invoked with `x[0] & 0xFF`; with none connected the instruction is a no-op
with a diagnostic on the trace port (R103). -/
def execSyscall (s : State) : Host.Outcome State Fault Refusal :=
  match s.handler with
  | none => .next (s.emitTrace (.syscallUnhandled s.syscallNumber))
  | some h => s.invokeHandler h s.syscallNumber

/-- HALT (R99). -/
def execHalt (s : State) : Host.Outcome State Fault Refusal :=
  .next s.setHalted

end Sys2Proof.Machine
end

