-- ==== Sys2Proof/Machine/Dispatch.lean ====
section
/-! DEFINITION. One arm per instruction (40_execution_cycle.md R78). -/

namespace Sys2Proof.Machine

def exec (i : Instr) (s : State) : Host.Outcome State Fault Refusal :=
  match i with
  | .nop => Sys2Proof.Machine.execNop s
  | .load reg1 reg2 imm => Sys2Proof.Machine.execLoad reg1 reg2 imm s
  | .store reg1 reg2 imm => Sys2Proof.Machine.execStore reg1 reg2 imm s
  | .add reg1 reg2 => Sys2Proof.Machine.execAdd reg1 reg2 s
  | .sub reg1 reg2 => Sys2Proof.Machine.execSub reg1 reg2 s
  | .syscall => Sys2Proof.Machine.execSyscall s
  | .halt => Sys2Proof.Machine.execHalt s

end Sys2Proof.Machine
end

