-- ==== Sys2Proof/Machine/Cycle.lean ====
section
/-! DEFINITION. The instruction cycle: fetch, decode, execute, advance (40_execution_cycle.md). -/

namespace Sys2Proof.Machine

/-- `Fetch() = MemRead(pc, 4)` (R80): routed, so a fetch from a device range reads four device registers. -/
def State.fetch (s : State) : Except FaultKind (Word × State) :=
  s.memReadWord (coreAddress s.pc)

/-- `execute(word)` (R78): decode, the trace event before any effect, then the instruction, or fault entry for an
opcode that is not in the table. Neither fetches nor advances `pc`. -/
def executeWord (w : Word) (s : State) : Host.Outcome State Fault Refusal :=
  match decodeWord w with
  | .ok i => exec i (s.emitTrace (.decoded s.pc w (fieldsOf w)))
  | .error _ => .next ((s.emitTrace (.decoded s.pc w (fieldsOf w))).faultEntry .unknownOpcode)

/-- `pc <- (pc + 4) mod 0x10000` (R81). -/
def State.advancePc (s : State) : State :=
  { s with pc := s.pc + 4#16 }

/-- The end of a step: `pc` advances unless the core became halted. Inside a step `execute` returns false exactly when
the instruction halted or faulted, and both leave `halted` true (R79), so `halted` alone decides. -/
def advanceUnlessHalted : Host.Outcome State Fault Refusal → Host.Outcome State Fault Refusal
  | .next s => .next (if s.halted then s else s.advancePc)
  | .fault f => .fault f
  | .refused r => .refused r

/-- `step()` (R79). A table that is not well formed is refused first (20_memory.md R44, D7). -/
def instructionCycle (s : State) : Host.Outcome State Fault Refusal :=
  if tableWellFormed s.mmioTable then
    if s.halted then .next s
    else
      match s.fetch with
      | .error f => .next (s.faultEntry f)
      | .ok (w, t) => advanceUnlessHalted (executeWord w t)
  else .refused .illFormedMmioTable

/-- What `step()` and `execute(word)` return to their caller (R78, R79), read off the state they leave: true exactly
when execution continues. -/
def State.continues (s : State) : Bool := !s.halted

/-- The machine about to run the instruction word: it is not halted, `pc` is a multiple of 4 and the word is what the
fetch answers, from RAM or, in a device range, from the device. It stands for a loaded program (log entry 20). -/
def State.placeFetchWord (s : State) (w : Word) : State :=
  let a := s.pc.toNat - s.pc.toNat % 4
  let t := { s with pc := BitVec.ofNat 16 a, halted := false, lastFault := if s.halted then none else s.lastFault }
  match lookup s.mmioTable a with
  | some _ => { t with deviceReplies := bytesOfWord w ++ s.deviceReplies }
  | none => { t with ram := s.ram.writeWord a w }

end Sys2Proof.Machine
end

