-- ==== Sys2Proof/Machine/Step.lean ====
section
/-! DEFINITION. One step of the machine (40_execution_cycle.md R79) and the placing of the next instruction. -/

namespace Sys2Proof.Machine

/-- One instruction cycle. -/
def step (s : State) : Host.Outcome State Fault Refusal := instructionCycle s

/-- The state whose next step fetches the instruction whose bits are `w`, numbered as spec/opcode_table.json numbers
them, the bits from `nbits` up zero. -/
def State.withFetchWord (s : State) (nbits w : Nat) : State :=
  s.placeFetchWord (BitVec.ofNat 32 (w % 2 ^ nbits))

end Sys2Proof.Machine
end

