-- ==== Sys2Proof/Machine/HostPorts.lean ====
section
/-! DEFINITION. The host's ports (00_scope.md R8): reset, run control, loader, debug and inspection, syscall port
configuration, trace port. None of these is an instruction; the host acts only between steps (70_reset_and_hazards.md
R161). The direct component calls are `State.directCall`. -/

namespace Sys2Proof.Machine

/-! ### Reset and loading (70_reset_and_hazards.md) -/

/-- `reset()` (R151). RAM, the handler slot, the table and the devices keep what they hold (R152, D15, D16). -/
def State.hostReset (s : State) : State :=
  { s with
    regs := Vector.replicate 16 0x00000000#32
    pc := Config.resetPc
    halted := false
    running := false
    lastFault := none }

/-- `clear_memory()` (R153): every cell `0x00`, which is the memory that lists no cell. -/
def State.clearMemory (s : State) : State :=
  { s with ram := [] }

/-- `load_program(bytes, start_address)` (R154): a raw copy, then `pc`; alignment is not checked (D24). A copy that
does not fit takes fault entry and changes neither RAM nor `pc` (R155, D11, D18). -/
def State.loadProgram (s : State) (bytes : List Byte) (start : Addr) : State :=
  match busLoadBulk s.ram (coreAddress start) bytes with
  | .ok m => { s with ram := m, pc := start }
  | .error f => s.faultEntry f

/-! ### Run control (40_execution_cycle.md) -/

/-- The loop of `run` (R82): at most `budget` steps, stopping when the core is halted; `n` counts the steps made. -/
def runLoop : Nat → Nat → State → Host.Outcome (Nat × State) Fault Refusal
  | 0, n, s => .next (n, s)
  | budget + 1, n, s =>
    if s.halted then .next (n, s)
    else
      match step s with
      | .next t => if t.continues then runLoop budget (n + 1) t else .next (n + 1, t)
      | .fault f => .fault f
      | .refused r => .refused r

/-- `run(max_steps)` (R82): the number of steps made (D17) and the state, with `running` cleared again. -/
def State.run (s : State) (maxSteps : Nat) : Host.Outcome (Nat × State) Fault Refusal :=
  match runLoop maxSteps 0 { s with running := true } with
  | .next r => .next (r.1, { r.2 with running := false })
  | .fault f => .fault f
  | .refused r => .refused r

/-- A direct `execute(word)` (R78, 60_exceptions.md R149): no fetch and no advance of `pc`; outside the spec on a
halted core (D20). -/
def State.executeDirect (s : State) (w : Word) : Host.Outcome State Fault Refusal :=
  if s.halted then .refused .executeWhileHalted else executeWord w s

/-! ### Debug and inspection (60_exceptions.md) -/

/-- `set_pc(address)` (R145): the range is checked, the alignment is not, and `halted` is not touched. -/
def State.setPc (s : State) (address : Int) : Except FaultKind State :=
  if address < 0 ∨ (Config.memSize : Int) ≤ address then .error .invalidAddress
  else .ok { s with pc := BitVec.ofNat 16 address.toNat }

/-- What `get_state()` returns (R146); `last_fault` is the spec's addition (D19). -/
structure Snapshot where
  pc : Addr
  registers : Vector Word 16
  runState : RunState
  lastFault : Option FaultKind
  deriving DecidableEq, Repr

/-- `get_state()` (R146). `get_pc()` (R145) is its first field. -/
def State.getState (s : State) : Snapshot :=
  ⟨s.pc, s.regs, s.runState, s.lastFault⟩

/-! ### Configuration of the syscall and trace ports -/

/-- `set_syscall_handler(handler)` (44_system.md R104). -/
def State.setSyscallHandler (s : State) (h : Option HandlerId) : State :=
  { s with handler := h }

/-- Attaching an observer to the trace port, or detaching it (40_execution_cycle.md R85). -/
def State.attachTrace (s : State) (on : Bool) : State :=
  { s with traceAttached := on }

/-! ### All host operations -/

/-- An operation of the host on a port of R8. -/
inductive HostOp where
  | reset
  | step
  | run (maxSteps : Nat)
  | execute (word : Word)
  | loadProgram (bytes : List Byte) (start : Addr)
  | clearMemory
  | call (c : DirectCall)
  | getPc
  | setPc (address : Int)
  | getState
  | setSyscallHandler (h : Option HandlerId)
  | attachTrace (on : Bool)
  deriving DecidableEq, Repr

/-- The state a host operation leaves; what it returns to the host is the operation's own definition. A direct call or
a `set_pc` that faults changes nothing (60_exceptions.md R148, D11). A table that is not well formed is refused
(20_memory.md R44, D7). -/
def hostApply (op : HostOp) (s : State) : Host.Outcome State Fault Refusal :=
  if tableWellFormed s.mmioTable then
    match op with
    | .reset => .next s.hostReset
    | .step => step s
    | .run maxSteps =>
      match s.run maxSteps with
      | .next r => .next r.2
      | .fault f => .fault f
      | .refused r => .refused r
    | .execute w => s.executeDirect w
    | .loadProgram bytes start => .next (s.loadProgram bytes start)
    | .clearMemory => .next s.clearMemory
    | .call c => .next (s.afterCall c)
    | .getPc => .next s
    | .setPc address =>
      match s.setPc address with
      | .ok t => .next t
      | .error _ => .next s
    | .getState => .next s
    | .setSyscallHandler h => .next (s.setSyscallHandler h)
    | .attachTrace on => .next (s.attachTrace on)
  else .refused .illFormedMmioTable

end Sys2Proof.Machine
end

