-- ==== Sys2Proof/Safety.lean ====
section
/-! DEFINITION. What counts as a good state and a clean end, and the words statements use for what is left
unchanged. -/

namespace Sys2Proof.Machine

/-- The invariant of every state the core can be in: the memory has its canonical form, a retained fault means halted
(60_exceptions.md R125), the two run flags are never both set (10_state.md R22), and the wiring is well formed
(20_memory.md R44). -/
structure CoreInv (s : State) : Prop where
  ram_canonical : Memory.wf s.ram = true
  fault_halts : s.lastFault ≠ none → s.halted = true
  flags_exclusive : ¬ (s.halted = true ∧ s.running = true)
  table_wellFormed : tableWellFormed s.mmioTable = true

/-- `pc` is a multiple of 4 (10_state.md R17). -/
def PcAligned (s : State) : Prop := s.pc.toNat % Config.wordBytes = 0

/-- The run is over and the last instruction was HALT (40_execution_cycle.md R87, 60_exceptions.md R126). -/
def EndedCleanly (s : State) : Prop := s.halted = true ∧ s.lastFault = none

/-- The run was stopped by a fault of the given kind (40_execution_cycle.md R87, 60_exceptions.md R126). -/
def EndedByFault (s : State) (f : FaultKind) : Prop := s.halted = true ∧ s.lastFault = some f

/-- A state the machine can be in: after creation with a well-formed table, and after every step or host operation
(00_scope.md R9). The agents outside the core are free: at any point their coming answers may be any. -/
inductive Reachable : State → Prop where
  | created (t : List Binding) (h : tableWellFormed t = true) : Reachable { State.reset with mmioTable := t }
  | stepped (s t : State) (h : Reachable s) (next : step s = .next t) : Reachable t
  | hosted (s t : State) (op : HostOp) (h : Reachable s) (next : hostApply op s = .next t) : Reachable t
  | answered (s : State) (h : Reachable s) (bytes : List Byte) (replies : List HandlerReply) :
      Reachable { s with deviceReplies := bytes, handlerReplies := replies }

/-- The core is about to execute the word `w`: it is not halted and the fetch answers `w`, leaving `u` (which differs
from `s` only in what device reads the fetch made). -/
def Fetches (s : State) (w : Word) (u : State) : Prop :=
  tableWellFormed s.mmioTable = true ∧ s.halted = false ∧ s.fetch = .ok (w, u)

/-- The word the core fetches next is a HALT (44_system.md R99). -/
def AtHalt (s : State) : Prop := ∃ (w : Word) (u : State), s.fetch = .ok (w, u) ∧ decodeWord w = .ok .halt

/-- The fault is what the next step raises (60_exceptions.md R119, R121): `UnalignedAccess` by a misaligned fetch or by a
fetched LOAD or STORE with a misaligned effective address, `UnknownOpcode` by a fetched word that is no instruction. -/
def FaultsWith (s : State) (f : FaultKind) : Prop :=
  (f = .unalignedAccess ∧ ¬ PcAligned s) ∨
  ∃ (w : Word) (u : State), s.fetch = .ok (w, u) ∧
    ((f = .unalignedAccess ∧ ∃ (reg1 reg2 : RegIdx) (imm : Imm),
        (decodeWord w = .ok (.load reg1 reg2 imm) ∨ decodeWord w = .ok (.store reg1 reg2 imm)) ∧
        (s.effectiveAddress reg2 imm).toNat % Config.wordBytes ≠ 0) ∨
      (f = .unknownOpcode ∧ ∃ e : DecodeError, decodeWord w = .error e))

/-- The state less the trace port. -/
def State.eraseTrace (s : State) : State := { s with traceAttached := false, traceLog := [] }

/-- The two states differ at most in RAM cells that lie under a device range (20_memory.md R50). -/
def AgreeButShadowedRam (s t : State) : Prop :=
  { s with ram := [] } = { t with ram := [] } ∧
    ∀ a : Nat, lookup s.mmioTable a = none → Memory.read s.ram a = Memory.read t.ram a

/-! ### Frames -/

/-- Every register but those in `except` holds what it held. -/
def SameRegsBut (except : List RegIdx) (s t : State) : Prop := ∀ r, r ∉ except → t.getReg r = s.getReg r

/-- The program counter, the run flags, the retained fault and the handler slot are as they were. -/
def SameControl (s t : State) : Prop :=
  t.pc = s.pc ∧ t.halted = s.halted ∧ t.running = s.running ∧ t.lastFault = s.lastFault ∧ t.handler = s.handler

/-- Every byte of memory reads as it did. -/
def SameMemory (s t : State) : Prop := ∀ a : Nat, Memory.read t.ram a = Memory.read s.ram a

/-- Every byte of memory outside the word at `a` reads as it did. -/
def SameMemoryOutside (a : Nat) (s t : State) : Prop := ∀ b : Nat, (b < a ∨ a + 3 < b) → Memory.read t.ram b = Memory.read s.ram b

/-- The wiring is as it was, and neither the device ports nor the syscall port carried anything. -/
def SamePorts (s t : State) : Prop :=
  t.mmioTable = s.mmioTable ∧ t.portLog = s.portLog ∧ t.deviceReplies = s.deviceReplies ∧
    t.handlerReplies = s.handlerReplies ∧ t.draws = s.draws

/-- The wiring, and what the handler is going to do, are as they were; the device ports may have carried something. -/
def SameWiring (s t : State) : Prop := t.mmioTable = s.mmioTable ∧ t.handlerReplies = s.handlerReplies

/-- The trace port is as it was. -/
def SameTrace (s t : State) : Prop := t.traceAttached = s.traceAttached ∧ t.traceLog = s.traceLog

end Sys2Proof.Machine
end

