-- ==== Sys2Proof/Certificates/Slice0/Obligations.lean ====
section
/-! DEFINITION. The statements for the provers. Each docstring names the rules of spec/ it formalises; where a clause
rests on one of the spec's own decisions or on a convention of the model, it names the decision or the log entry. -/

open Sys2Proof Sys2Proof.Machine

/-! ### Encoding (30_encoding.md) -/

/-- Decode and encode agree on every instruction, as a word and as bytes in memory (R65, R67, R76). -/
def Obligations.DecodeOfEncodeIsTheInstruction : Prop :=
  ∀ i : Instr, decodeWord (encode i) = .ok i ∧ decodeBytes (encodeBytes i) = .ok i

/-- R66: the fields are bits 31:24, 23:20, 19:16 and 15:0 of the word, for every word. -/
def Obligations.DecodeSplitsEveryWord : Prop :=
  ∀ w : Word,
    (fieldsOf w).opcode.toNat = w.toNat / 2 ^ 24 ∧
    (fieldsOf w).reg1.val = w.toNat / 2 ^ 20 % 16 ∧
    (fieldsOf w).reg2.val = w.toNat / 2 ^ 16 % 16 ∧
    (fieldsOf w).imm.toNat = w.toNat % 2 ^ 16

/-- R70 and R76: the opcode alone selects the instruction, and a word decodes to the instruction whose encoding it
has in the fields the instruction uses. That the other fields are ignored is the spec's decision D3 (log entry 9). -/
def Obligations.OpcodeAloneSelectsTheInstruction : Prop :=
  ∀ (opcode reg1 reg2 imm : Nat) (h1 : reg1 < 16) (h2 : reg2 < 16), opcode < 256 → imm < 65536 →
    ∀ w : Word, w.toNat = opcode * 2 ^ 24 + reg1 * 2 ^ 20 + reg2 * 2 ^ 16 + imm →
      (opcode = 0x00 → decodeWord w = .ok .nop) ∧
      (opcode = 0x01 → decodeWord w = .ok (.load ⟨reg1, h1⟩ ⟨reg2, h2⟩ (BitVec.ofNat 16 imm))) ∧
      (opcode = 0x02 → decodeWord w = .ok (.store ⟨reg1, h1⟩ ⟨reg2, h2⟩ (BitVec.ofNat 16 imm))) ∧
      (opcode = 0x03 → decodeWord w = .ok (.add ⟨reg1, h1⟩ ⟨reg2, h2⟩)) ∧
      (opcode = 0x04 → decodeWord w = .ok (.sub ⟨reg1, h1⟩ ⟨reg2, h2⟩)) ∧
      (opcode = 0x05 → decodeWord w = .ok .syscall) ∧
      (opcode = 0xFF → decodeWord w = .ok .halt)

/-- Words written out from the encodings of R65 and R70, the ones the source shows among them, and one word that is no
instruction: `0x06000000` has a reserved opcode, which the spec's decision D1 makes an unknown one (R72, R73; log
entry 10). -/
def Obligations.SampleWordsDecode : Prop :=
  decodeWord 0x00000000#32 = .ok .nop ∧
  decodeWord 0x01000000#32 = .ok (.load 0 0 0x0000#16) ∧
  decodeWord 0x01120010#32 = .ok (.load 1 2 0x0010#16) ∧
  decodeWord 0x02340008#32 = .ok (.store 3 4 0x0008#16) ∧
  decodeWord 0x03560000#32 = .ok (.add 5 6) ∧
  decodeWord 0x04120000#32 = .ok (.sub 1 2) ∧
  decodeWord 0x05000000#32 = .ok .syscall ∧
  decodeWord 0xFF000000#32 = .ok .halt ∧
  decodeWord 0x06000000#32 = .error (.unknownOpcode 0x06#8)

/-- R72: a word is no instruction exactly when its opcode is one of the 249 values `0x06 .. 0xFE`, and executing one
takes the fault `UnknownOpcode` with every register, every memory cell and `pc` as they were. For `0x06`, `0x07` and
`0x08` this is the spec's decision D1 (R73; log entry 10); that no other word is turned away, whatever its unused
fields hold, is its decision D3 (log entry 9). -/
def Obligations.UnlistedOpcodeFaultsAndChangesNothing : Prop :=
  ∀ w : Word,
    ((∃ e, decodeWord w = .error e) ↔ 0x06 ≤ w.toNat / 2 ^ 24 ∧ w.toNat / 2 ^ 24 ≤ 0xFE) ∧
    ((∃ e, decodeWord w = .error e) ↔
      w &&& 0xFF000000#32 ∉ [0x00000000#32, 0x01000000#32, 0x02000000#32, 0x03000000#32, 0x04000000#32,
        0x05000000#32, 0xFF000000#32]) ∧
    (0x06 ≤ w.toNat / 2 ^ 24 → w.toNat / 2 ^ 24 ≤ 0xFE →
      ∀ s u : State, Fetches s w u →
        ∃ t, step s = .next t ∧ t.halted = true ∧ t.lastFault = some .unknownOpcode ∧
          SameRegsBut [] s t ∧ SameMemory s t ∧ t.pc = s.pc)

/-! ### The Memory Bus (20_memory.md) -/

/-- R37: byte accesses have no alignment requirement, and a write changes the one cell. -/
def Obligations.BusByteAccess : Prop :=
  ∀ (m : Memory) (addr : Int) (v : Byte), Memory.wf m = true →
    ((addr < 0 ∨ 0x10000 ≤ addr) →
      busReadByte m addr = .error .addressOutOfBounds ∧ busWriteByte m addr v = .error .addressOutOfBounds) ∧
    (0 ≤ addr → addr < 0x10000 →
      busReadByte m addr = .ok (Memory.read m addr.toNat) ∧
      ∃ m', busWriteByte m addr v = .ok m' ∧ Memory.read m' addr.toNat = v ∧
        ∀ b : Nat, b ≠ addr.toNat → Memory.read m' b = Memory.read m b)

/-- R40: word accesses check bounds, then alignment; an aligned word is four cells, most significant byte first. -/
def Obligations.BusWordAccess : Prop :=
  ∀ (m : Memory) (addr : Int) (v : Word), Memory.wf m = true →
    ((addr < 0 ∨ 0x10000 ≤ addr) →
      busReadWord m addr = .error .addressOutOfBounds ∧ busWriteWord m addr v = .error .addressOutOfBounds) ∧
    (0 ≤ addr → addr < 0x10000 → addr % 4 ≠ 0 →
      busReadWord m addr = .error .unalignedAccess ∧ busWriteWord m addr v = .error .unalignedAccess) ∧
    (0 ≤ addr → addr < 0x10000 → addr % 4 = 0 →
      (∃ r : Word, busReadWord m addr = .ok r ∧
        r.toNat = (Memory.read m addr.toNat).toNat * 2 ^ 24 + (Memory.read m (addr.toNat + 1)).toNat * 2 ^ 16 +
          (Memory.read m (addr.toNat + 2)).toNat * 2 ^ 8 + (Memory.read m (addr.toNat + 3)).toNat) ∧
      (∃ m', busWriteWord m addr v = .ok m' ∧
        (Memory.read m' addr.toNat).toNat = v.toNat / 2 ^ 24 ∧
        (Memory.read m' (addr.toNat + 1)).toNat = v.toNat / 2 ^ 16 % 256 ∧
        (Memory.read m' (addr.toNat + 2)).toNat = v.toNat / 2 ^ 8 % 256 ∧
        (Memory.read m' (addr.toNat + 3)).toNat = v.toNat % 256 ∧
        ∀ b : Nat, (b < addr.toNat ∨ addr.toNat + 3 < b) → Memory.read m' b = Memory.read m b))

/-- R36: the bounds check is the first check of every accessor of both layers, and an address the core presents
passes it. -/
def Obligations.BoundsAreCheckedFirst : Prop :=
  (∀ (s : State) (addr : Int) (v : Byte) (w : Word) (bytes : List Byte), (addr < 0 ∨ 0x10000 ≤ addr) →
    ∀ c ∈ [DirectCall.busReadByte addr, .busWriteByte addr v, .busReadWord addr, .busWriteWord addr w,
        .busLoadBulk addr bytes, .memReadByte addr, .memWriteByte addr v, .memReadWord addr, .memWriteWord addr w],
      s.directCall c = .error .addressOutOfBounds) ∧
  (∀ (s : State) (a : Addr) (v : Byte) (w : Word),
    ∀ c ∈ [DirectCall.busReadByte (coreAddress a), .busWriteByte (coreAddress a) v, .busReadWord (coreAddress a),
        .busWriteWord (coreAddress a) w, .memReadByte (coreAddress a), .memWriteByte (coreAddress a) v,
        .memReadWord (coreAddress a), .memWriteWord (coreAddress a) w],
      s.directCall c ≠ .error .addressOutOfBounds)

/-- R41, with decision D18 for its all-or-nothing form: a bulk load that fits copies its bytes in order and changes no
other cell; one that does not fit changes nothing. -/
def Obligations.BulkLoadCopiesAllOrNothing : Prop :=
  ∀ (m : Memory) (addr : Int) (bytes : List Byte), Memory.wf m = true →
    ((addr < 0 ∨ 0x10000 ≤ addr) → busLoadBulk m addr bytes = .error .addressOutOfBounds) ∧
    (0 ≤ addr → addr < 0x10000 → 0x10000 < addr + bytes.length →
      busLoadBulk m addr bytes = .error .insufficientSpace) ∧
    (0 ≤ addr → addr < 0x10000 → addr + bytes.length ≤ 0x10000 →
      ∃ m', busLoadBulk m addr bytes = .ok m' ∧ Memory.wf m' = true ∧
        (∀ (i : Nat) (h : i < bytes.length), Memory.read m' (addr.toNat + i) = bytes[i]) ∧
        ∀ b : Nat, (b < addr.toNat ∨ addr.toNat + bytes.length ≤ b) → Memory.read m' b = Memory.read m b)

/-- Two memories in canonical form that read the same at every address are the same memory: equal memories are equal
data (10_state.md R25; the form is the model's). -/
def Obligations.CanonicalMemoriesThatReadAlikeAreEqual : Prop :=
  ∀ m n : Memory, Memory.wf m = true → Memory.wf n = true → (∀ a : Nat, Memory.read m a = Memory.read n a) → m = n

/-! ### The MMIO Router (20_memory.md) -/

/-- R45 with R44 item 4: in a well-formed table the lookup finds the one binding that covers the address, wherever it
stands, and finds none exactly when none covers it. -/
def Obligations.LookupFindsTheCoveringBinding : Prop :=
  ∀ (t : List Binding) (a : Nat), tableWellFormed t = true →
    (∀ b : Binding, lookup t a = some b ↔
      b ∈ t ∧ b.base.toNat ≤ a ∧ a < b.base.toNat + b.length.toNat) ∧
    (lookup t a = none ↔ ∀ b ∈ t, a < b.base.toNat ∨ b.base.toNat + b.length.toNat ≤ a)

/-- R44 and R47: an aligned word that the router sends to a device lies wholly inside its block, so every offset it
passes is below the block's length. -/
def Obligations.RoutedWordStaysInsideTheBlock : Prop :=
  ∀ (t : List Binding) (a : Nat) (b : Binding), tableWellFormed t = true → a % 4 = 0 → lookup t a = some b →
    (Binding.offset b a).toNat = a - b.base.toNat ∧
    a + 3 < b.base.toNat + b.length.toNat ∧
    (Binding.offset b a).toNat + 3 < b.length.toNat ∧ a + 3 < 0x10000

/-- R46, with decision D26: a routed byte access to a device is one register access at `addr - base` and leaves RAM
alone; elsewhere it is the raw access. -/
def Obligations.RouterByteAccess : Prop :=
  ∀ (s : State) (a : Addr) (v : Byte), Memory.wf s.ram = true →
    (∀ b : Binding, lookup s.mmioTable a.toNat = some b →
      (∃ r t, s.memReadByte (coreAddress a) = .ok (r, t) ∧ SameRegsBut [] s t ∧ SameMemory s t ∧ SameControl s t ∧
        t.portLog = s.portLog ++ [.devRead b.device (BitVec.ofNat 16 (a.toNat - b.base.toNat)) r]) ∧
      (∃ t, s.memWriteByte (coreAddress a) v = .ok t ∧ SameRegsBut [] s t ∧ SameMemory s t ∧ SameControl s t ∧
        t.portLog = s.portLog ++ [.devWrite b.device (BitVec.ofNat 16 (a.toNat - b.base.toNat)) v])) ∧
    (lookup s.mmioTable a.toNat = none →
      s.memReadByte (coreAddress a) = .ok (Memory.read s.ram a.toNat, s) ∧
      ∃ t, s.memWriteByte (coreAddress a) v = .ok t ∧ Memory.read t.ram a.toNat = v ∧ SamePorts s t ∧
        ∀ c : Nat, c ≠ a.toNat → Memory.read t.ram c = Memory.read s.ram c)

/-! ### NOP, LOAD, STORE (41_nop.md, 42_load_store.md) -/

/-- R88: NOP completes with no effect, whatever the other fields of its word hold, and its step advances `pc` by 4 and
does nothing else but emit the trace event (log entries 9 and 16). -/
def Obligations.NopCompletes : Prop :=
  (∀ s : State, exec .nop s = .next s) ∧
  ∀ (w : Word) (s u : State), w.toNat / 2 ^ 24 = 0x00 → Fetches s w u →
    step s = .next (u.emitTrace (.decoded s.pc w (fieldsOf w))).advancePc

/-- R89: the effective address is the sum modulo 65536, to which bits 31:16 of the base register contribute nothing. -/
def Obligations.EffectiveAddressWraps : Prop :=
  ∀ (s : State) (reg2 : RegIdx) (imm : Imm),
    (s.effectiveAddress reg2 imm).toNat = ((s.getReg reg2).toNat + imm.toNat) % 0x10000 ∧
    (s.effectiveAddress reg2 imm).toNat = ((s.getReg reg2).toNat % 0x10000 + imm.toNat) % 0x10000

/-- R90 on RAM: LOAD completes with the big-endian word at the effective address in `reg1`, and nothing else changes. -/
def Obligations.LoadFromRamCompletes : Prop :=
  ∀ (s : State) (reg1 reg2 : RegIdx) (imm : Imm) (a : Nat), a = (s.effectiveAddress reg2 imm).toNat →
    a % 4 = 0 → lookup s.mmioTable a = none →
    ∃ t, exec (.load reg1 reg2 imm) s = .next t ∧
      (t.getReg reg1).toNat = (Memory.read s.ram a).toNat * 2 ^ 24 + (Memory.read s.ram (a + 1)).toNat * 2 ^ 16 +
        (Memory.read s.ram (a + 2)).toNat * 2 ^ 8 + (Memory.read s.ram (a + 3)).toNat ∧
      SameRegsBut [reg1] s t ∧ SameControl s t ∧ SameMemory s t ∧ SamePorts s t ∧ SameTrace s t

/-- R90 and R48 on a device range: LOAD completes after four register reads at ascending offsets, composed big-endian
(decisions D5, D6); any four bytes can be the answers, and they are the ones the state already holds where it holds
them (log entry 4). -/
def Obligations.LoadFromDeviceCompletes : Prop :=
  ∀ (s : State) (reg1 reg2 : RegIdx) (imm : Imm) (a : Nat) (b : Binding), a = (s.effectiveAddress reg2 imm).toNat →
    a % 4 = 0 → lookup s.mmioTable a = some b →
    ∃ (t : State) (r0 r1 r2 r3 : Byte), exec (.load reg1 reg2 imm) s = .next t ∧
      (t.getReg reg1).toNat = r0.toNat * 2 ^ 24 + r1.toNat * 2 ^ 16 + r2.toNat * 2 ^ 8 + r3.toNat ∧
      t.portLog = s.portLog ++
        [.devRead b.device (BitVec.ofNat 16 (a - b.base.toNat)) r0,
         .devRead b.device (BitVec.ofNat 16 (a - b.base.toNat + 1)) r1,
         .devRead b.device (BitVec.ofNat 16 (a - b.base.toNat + 2)) r2,
         .devRead b.device (BitVec.ofNat 16 (a - b.base.toNat + 3)) r3] ∧
      (∀ q0 q1 q2 q3 rest, s.deviceReplies = q0 :: q1 :: q2 :: q3 :: rest →
        (r0 = q0 ∧ r1 = q1 ∧ r2 = q2 ∧ r3 = q3) ∧ t.deviceReplies = rest) ∧
      SameRegsBut [reg1] s t ∧ SameControl s t ∧ SameMemory s t ∧ SameWiring s t ∧ SameTrace s t

/-- R91 on RAM: STORE completes with the register's bytes in the four cells at the effective address, most significant
first, and nothing else changes. -/
def Obligations.StoreToRamCompletes : Prop :=
  ∀ (s : State) (reg1 reg2 : RegIdx) (imm : Imm) (a : Nat), Memory.wf s.ram = true →
    a = (s.effectiveAddress reg2 imm).toNat → a % 4 = 0 → lookup s.mmioTable a = none →
    ∃ t, exec (.store reg1 reg2 imm) s = .next t ∧
      (Memory.read t.ram a).toNat = (s.getReg reg1).toNat / 2 ^ 24 ∧
      (Memory.read t.ram (a + 1)).toNat = (s.getReg reg1).toNat / 2 ^ 16 % 256 ∧
      (Memory.read t.ram (a + 2)).toNat = (s.getReg reg1).toNat / 2 ^ 8 % 256 ∧
      (Memory.read t.ram (a + 3)).toNat = (s.getReg reg1).toNat % 256 ∧
      SameMemoryOutside a s t ∧ SameRegsBut [] s t ∧ SameControl s t ∧ SamePorts s t ∧ SameTrace s t

/-- R91, R49 and R50 on a device range: STORE completes after four register writes at ascending offsets, decomposed
big-endian (decisions D5, D6), and the RAM below the range keeps every byte. -/
def Obligations.StoreToDeviceCompletes : Prop :=
  ∀ (s : State) (reg1 reg2 : RegIdx) (imm : Imm) (a : Nat) (b : Binding), a = (s.effectiveAddress reg2 imm).toNat →
    a % 4 = 0 → lookup s.mmioTable a = some b →
    ∃ (t : State) (v0 v1 v2 v3 : Byte), exec (.store reg1 reg2 imm) s = .next t ∧
      (s.getReg reg1).toNat = v0.toNat * 2 ^ 24 + v1.toNat * 2 ^ 16 + v2.toNat * 2 ^ 8 + v3.toNat ∧
      t.portLog = s.portLog ++
        [.devWrite b.device (BitVec.ofNat 16 (a - b.base.toNat)) v0,
         .devWrite b.device (BitVec.ofNat 16 (a - b.base.toNat + 1)) v1,
         .devWrite b.device (BitVec.ofNat 16 (a - b.base.toNat + 2)) v2,
         .devWrite b.device (BitVec.ofNat 16 (a - b.base.toNat + 3)) v3] ∧
      t.deviceReplies = s.deviceReplies ∧ t.draws = s.draws ∧
      SameMemory s t ∧ SameRegsBut [] s t ∧ SameControl s t ∧ SameWiring s t ∧ SameTrace s t

/-- R90, R91 and R114: a LOAD or STORE whose effective address is not a multiple of 4 takes the fault
`UnalignedAccess`, in a device range as well (decision D4), before anything is read or written. That fault entry clears
`running` is decision D12. -/
def Obligations.MisalignedLoadAndStoreFault : Prop :=
  ∀ (s : State) (reg1 reg2 : RegIdx) (imm : Imm), (s.effectiveAddress reg2 imm).toNat % 4 ≠ 0 →
    ∀ i ∈ [Instr.load reg1 reg2 imm, .store reg1 reg2 imm],
      ∃ t, exec i s = .next t ∧ t.halted = true ∧ t.running = false ∧ t.lastFault = some .unalignedAccess ∧
        t.pc = s.pc ∧ t.handler = s.handler ∧
        SameRegsBut [] s t ∧ SameMemory s t ∧ SamePorts s t ∧ SameTrace s t

/-- R61 and R42: a word stored to RAM is what every later fetch of that address gets while nothing else writes RAM, so
self-modifying code needs no fence. -/
def Obligations.StoredWordIsWhatTheNextFetchGets : Prop :=
  ∀ (s t u : State) (reg1 reg2 : RegIdx) (imm : Imm), Memory.wf s.ram = true →
    (s.effectiveAddress reg2 imm).toNat % 4 = 0 → lookup s.mmioTable (s.effectiveAddress reg2 imm).toNat = none →
    exec (.store reg1 reg2 imm) s = .next t →
    u.ram = t.ram → u.mmioTable = t.mmioTable → u.pc = s.effectiveAddress reg2 imm →
    u.fetch = .ok (s.getReg reg1, u)

/-! ### ADD and SUB (43_arithmetic.md) -/

/-- R95: ADD completes with the sum modulo 2^32 in `reg1`, both operands read before it is written, and changes
nothing else. -/
def Obligations.AddCompletes : Prop :=
  ∀ (s : State) (reg1 reg2 : RegIdx),
    ∃ t, exec (.add reg1 reg2) s = .next t ∧
      (t.getReg reg1).toNat = ((s.getReg reg1).toNat + (s.getReg reg2).toNat) % 2 ^ 32 ∧
      SameRegsBut [reg1] s t ∧ SameControl s t ∧ SameMemory s t ∧ SamePorts s t ∧ SameTrace s t

/-- R96: SUB completes with `x[reg1] - x[reg2]` modulo 2^32 in `reg1`, in that operand order, and changes nothing
else; a register subtracted from itself is zero. -/
def Obligations.SubCompletes : Prop :=
  ∀ (s : State) (reg1 reg2 : RegIdx),
    ∃ t, exec (.sub reg1 reg2) s = .next t ∧
      ((t.getReg reg1).toNat : Int) = (((s.getReg reg1).toNat : Int) - ((s.getReg reg2).toNat : Int)) % 2 ^ 32 ∧
      (reg1 = reg2 → t.getReg reg1 = 0#32) ∧
      SameRegsBut [reg1] s t ∧ SameControl s t ∧ SameMemory s t ∧ SamePorts s t ∧ SameTrace s t

/-! ### SYSCALL and HALT (44_system.md) -/

/-- R98 and R103: with no handler connected SYSCALL completes and changes nothing of the core; the diagnostic is the
event on the trace port if an observer is attached (decision D22). -/
def Obligations.SyscallWithoutHandlerCompletes : Prop :=
  ∀ s : State, s.handler = none →
    ∃ t, exec .syscall s = .next t ∧ SameRegsBut [] s t ∧ SameControl s t ∧ SameMemory s t ∧ SamePorts s t ∧
      t.traceAttached = s.traceAttached ∧
      ∃ n : Byte, n.toNat = (s.getReg 0).toNat % 256 ∧
        t.traceLog = if s.traceAttached then s.traceLog ++ [.syscallUnhandled n] else s.traceLog

/-- R98 and R101: a connected handler that returns is invoked exactly once, with the low byte of `R0`, before any
access it makes; the state after it is what its own calls leave, and the instruction completes. The handler's
behaviour is a hypothesis (R102, decision D10; log entry 5). -/
def Obligations.SyscallInvokesTheHandlerOnce : Prop :=
  ∀ (s : State) (h : HandlerId) (calls : List DirectCall), s.handler = some h →
    s.nextHandlerReply.1 = .returns calls →
    ∃ (t : State) (n : Byte) (after : List PortEvent), exec .syscall s = .next t ∧
      n.toNat = (s.getReg 0).toNat % 256 ∧
      t = ({ s.nextHandlerReply.2 with portLog := s.portLog ++ [.syscall h n] } : State).performCalls calls ∧
      t.portLog = s.portLog ++ .syscall h n :: after ∧
      (∀ e ∈ after, ∀ h' n', e ≠ .syscall h' n') ∧ SameTrace s t

/-- R100: the number the handler receives is the low byte of `R0` and nothing but it: two states that differ in the
upper 24 bits of `R0`, or in any other register, hand over the same number. -/
def Obligations.SyscallNumberIsTheLowByteOfRegisterZero : Prop :=
  ∀ s u : State, s.syscallNumber.toNat = (s.getReg 0).toNat % 256 ∧
    ((s.getReg 0).toNat % 256 = (u.getReg 0).toNat % 256 → s.syscallNumber = u.syscallNumber)

/-- R102, the spec's decision D10 (log entry 5): whatever a handler does, it leaves `pc`, the flags, the retained fault,
its own slot and the wiring alone, and memory keeps its canonical form. -/
def Obligations.HandlerStaysInItsScope : Prop :=
  ∀ (s : State) (calls : List DirectCall),
    SameControl s (s.performCalls calls) ∧ SameTrace s (s.performCalls calls) ∧
    (s.performCalls calls).mmioTable = s.mmioTable ∧
    (s.performCalls calls).handlerReplies = s.handlerReplies ∧
    (Memory.wf s.ram = true → Memory.wf (s.performCalls calls).ram = true)

/-- The stop of 93_implementation_defined.md section 2 (treatment `stuck`; log entry 6): SYSCALL has no next state
exactly when a connected handler never returns. -/
def Obligations.SyscallStopsOnlyWhenTheHandlerNeverReturns : Prop :=
  ∀ s : State,
    (exec .syscall s = .fault .handlerNeverReturns ↔
      s.handler ≠ none ∧ s.nextHandlerReply.1 = .neverReturns) ∧
    ((∃ t, exec .syscall s = .next t) ∨ exec .syscall s = .fault .handlerNeverReturns)

/-- R99: HALT completes: it sets `halted`, clears `running`, and changes nothing else, `last_fault` and `pc` among the
rest; its step does not advance `pc`. The trace event of the step is decision D21 (log entry 16); that every word with
opcode `0xFF` is a HALT is decision D3 (log entry 9). -/
def Obligations.HaltCompletes : Prop :=
  (∀ s : State, ∃ t, exec .halt s = .next t ∧ t.halted = true ∧ t.running = false ∧ t.lastFault = s.lastFault ∧
    t.pc = s.pc ∧ t.handler = s.handler ∧
    SameRegsBut [] s t ∧ SameMemory s t ∧ SamePorts s t ∧ SameTrace s t) ∧
  ∀ (w : Word) (s u : State), w.toNat / 2 ^ 24 = 0xFF → Fetches s w u →
    ∃ t, step s = .next t ∧ t.halted = true ∧ t.running = false ∧ t.lastFault = s.lastFault ∧ t.pc = s.pc ∧
      SameRegsBut [] s t ∧ SameMemory s t

/-! ### The instruction cycle (40_execution_cycle.md) -/

/-- R78 and R79: when the word fetched at `pc` decodes to an instruction, the step is that instruction's execution on
the state the fetch left, with the trace event before it (decision D21), followed by the advance of `pc` unless the
core became halted. -/
def Obligations.StepRunsTheDecodedInstruction : Prop :=
  ∀ (s u : State) (w : Word) (i : Instr), Fetches s w u → decodeWord w = .ok i →
    (∀ t, exec i (u.emitTrace (.decoded s.pc w (fieldsOf w))) = .next t →
      step s = .next (if t.halted then t else { t with pc := t.pc + 4#16 })) ∧
    (∀ f, exec i (u.emitTrace (.decoded s.pc w (fieldsOf w))) = .fault f → step s = .fault f) ∧
    (∀ r, exec i (u.emitTrace (.decoded s.pc w (fieldsOf w))) = .refused r → step s = .refused r)

/-- R80 and R56: the fetch of an aligned `pc` outside every device range reads the big-endian word there and changes
nothing; in a device range it makes four register reads at ascending offsets and answers their big-endian word
(decisions D5, D6; any four bytes can be the answers, log entry 4), and changes nothing of the core; a misaligned `pc`
takes the fault `UnalignedAccess` before anything is read or decoded, in a device range as well (decision D4), and `pc`
keeps its value. That fault entry clears `running` and retains the kind are decisions D12 and D13 (log entry 11). -/
def Obligations.FetchReadsTheWordOrFaults : Prop :=
  ∀ s : State,
    (s.pc.toNat % 4 = 0 → lookup s.mmioTable s.pc.toNat = none →
      ∃ w : Word, s.fetch = .ok (w, s) ∧
        w.toNat = (Memory.read s.ram s.pc.toNat).toNat * 2 ^ 24 + (Memory.read s.ram (s.pc.toNat + 1)).toNat * 2 ^ 16 +
          (Memory.read s.ram (s.pc.toNat + 2)).toNat * 2 ^ 8 + (Memory.read s.ram (s.pc.toNat + 3)).toNat) ∧
    (∀ b : Binding, s.pc.toNat % 4 = 0 → lookup s.mmioTable s.pc.toNat = some b →
      ∃ (w : Word) (u : State) (r0 r1 r2 r3 : Byte), s.fetch = .ok (w, u) ∧
        w.toNat = r0.toNat * 2 ^ 24 + r1.toNat * 2 ^ 16 + r2.toNat * 2 ^ 8 + r3.toNat ∧
        u.portLog = s.portLog ++
          [.devRead b.device (BitVec.ofNat 16 (s.pc.toNat - b.base.toNat)) r0,
           .devRead b.device (BitVec.ofNat 16 (s.pc.toNat - b.base.toNat + 1)) r1,
           .devRead b.device (BitVec.ofNat 16 (s.pc.toNat - b.base.toNat + 2)) r2,
           .devRead b.device (BitVec.ofNat 16 (s.pc.toNat - b.base.toNat + 3)) r3] ∧
        (∀ q0 q1 q2 q3 rest, s.deviceReplies = q0 :: q1 :: q2 :: q3 :: rest →
          (r0 = q0 ∧ r1 = q1 ∧ r2 = q2 ∧ r3 = q3) ∧ u.deviceReplies = rest) ∧
        SameRegsBut [] s u ∧ SameControl s u ∧ SameMemory s u ∧ SameWiring s u ∧ SameTrace s u) ∧
    (s.pc.toNat % 4 ≠ 0 → tableWellFormed s.mmioTable = true → s.halted = false →
      s.fetch = .error .unalignedAccess ∧
      step s = .next { s with halted := true, running := false, lastFault := some .unalignedAccess })

/-- R18: after a step of a running core `pc` has advanced by 4 modulo 65536 unless the core became halted, and then it
is unchanged; a step leaves the core halted only by a fault or by a HALT; and no instruction's own execution changes
`pc`. -/
def Obligations.StepAdvancesPcByFourOrHalts : Prop :=
  (∀ s t : State, s.halted = false → step s = .next t →
    (t.halted = false → t.pc.toNat = (s.pc.toNat + 4) % 0x10000) ∧ (t.halted = true → t.pc = s.pc) ∧
    (t.halted = true → t.lastFault = none →
      ∃ (w : Word) (u : State), s.fetch = .ok (w, u) ∧ decodeWord w = .ok .halt)) ∧
  ∀ (i : Instr) (s t : State), exec i s = .next t → t.pc = s.pc

/-- R17: `pc` is a multiple of 4 in every state a step leaves, if it was before; and a step that leaves a core which
has not halted started from an aligned `pc`. -/
def Obligations.StepKeepsPcAligned : Prop :=
  ∀ s t : State, step s = .next t →
    (PcAligned s → PcAligned t) ∧ (t.halted = false → PcAligned s)

/-- R20, R79 and R125: a halted core ignores `step`, and no host operation but reset makes it not halted; reset does. -/
def Obligations.HaltedUntilReset : Prop :=
  ∀ s : State, tableWellFormed s.mmioTable = true → s.halted = true →
    step s = .next s ∧
    (∀ (op : HostOp) (t : State), op ≠ .reset → hostApply op s = .next t → t.halted = true) ∧
    ∃ t, hostApply .reset s = .next t ∧ t.halted = false

/-- R123: a step that takes a fault changes nothing but `halted`, `running` and `last_fault`; the fetch's own device
reads may have happened. -/
def Obligations.FaultsArePrecise : Prop :=
  ∀ (s t : State) (f : FaultKind), s.halted = false → s.lastFault = none → step s = .next t → t.lastFault = some f →
    t.halted = true ∧ SameRegsBut [] s t ∧ t.ram = s.ram ∧ t.pc = s.pc ∧ t.handler = s.handler

/-- R119 and R121: a step can take two faults only; `UnalignedAccess` comes from a misaligned fetch or a LOAD or STORE
with a misaligned effective address, `UnknownOpcode` from a fetched word that is no instruction. -/
def Obligations.StepTakesTwoFaultsOnly : Prop :=
  ∀ (s t : State) (f : FaultKind), s.halted = false → s.lastFault = none → step s = .next t → t.lastFault = some f →
    (f = .unalignedAccess ∧
      (s.pc.toNat % 4 ≠ 0 ∨
        ∃ (w : Word) (u : State) (reg1 reg2 : RegIdx) (imm : Imm), s.fetch = .ok (w, u) ∧
          (decodeWord w = .ok (.load reg1 reg2 imm) ∨ decodeWord w = .ok (.store reg1 reg2 imm)) ∧
          (s.effectiveAddress reg2 imm).toNat % 4 ≠ 0)) ∨
    (f = .unknownOpcode ∧ ∃ (w : Word) (u : State) (e : DecodeError), s.fetch = .ok (w, u) ∧ decodeWord w = .error e)

/-- R127, with R162 for a handler that never returns: on a well-formed table every step has a next state, unless a
connected handler never returns. -/
def Obligations.StepAlwaysAnswers : Prop :=
  ∀ s : State, tableWellFormed s.mmioTable = true →
    (∃ t, step s = .next t) ∨ (s.handler ≠ none ∧ step s = .fault .handlerNeverReturns)

/-- R82, with decision D17 for the count: `run` makes at most `max_steps` steps with `running` set, each of them on a
core that is not halted, so it stops as soon as the core is halted; it stops early only because the core is halted; and
it always leaves `running` clear. -/
def Obligations.RunIsAtMostMaxStepsSteps : Prop :=
  ∀ (s t : State) (maxSteps n : Nat), s.run maxSteps = .next (n, t) →
    n ≤ maxSteps ∧ t.running = false ∧ (n < maxSteps → t.halted = true) ∧ (s.halted = true → n = 0) ∧
    (∀ k : Nat, k < n → ∃ v : State, Sys2Proof.core.run k ({ s with running := true } : State) = .next v ∧
      v.halted = false) ∧
    ∃ u, Sys2Proof.core.run n ({ s with running := true } : State) = .next u ∧ t = { u with running := false }

/-! ### Invariants and whole-machine rules -/

/-- R125, R22, R44: the invariant holds of the machine after creation, whatever well-formed table the host has wired
(log entry 2); the values after creation are decision D25 (log entry 1). -/
def Obligations.InvariantHoldsAtReset : Prop :=
  ∀ table : List Binding, tableWellFormed table = true → CoreInv { State.reset with mmioTable := table }

/-- R125, R22, R25, R26: every step keeps the invariant, from every state that has it. That a fault clears `running` and
retains its kind are decisions D12 and D13 (log entry 11); that a handler leaves the flags alone is decision D10 (log
entry 5). -/
def Obligations.StepKeepsTheInvariant : Prop :=
  ∀ s t : State, CoreInv s → step s = .next t → CoreInv t

/-- The same for every operation of the host's ports (00_scope.md R8), with the same decisions (log entries 5, 11). -/
def Obligations.HostOperationsKeepTheInvariant : Prop :=
  ∀ (op : HostOp) (s t : State), CoreInv s → hostApply op s = .next t → CoreInv t

/-- R126 and R87: how a run ends. A step of a core that was not halted and had no retained fault leaves it halted only
by the HALT it fetched or by the one fault it took; it ends cleanly exactly when the fetched word is a HALT, and by the
fault `f` exactly when `f` is what the fetch or the fetched word raises. And a `run` from such a core that leaves it
halted ended so at its last step, before which the core was neither halted nor had a retained fault; otherwise it ended
on its step budget and the core is stopped with no retained fault. The retained kind is decision D13, that no handler
halts the core decision D10, and the count of `run` decision D17 (log entries 5, 11, 14). -/
def Obligations.EndsAreHaltsOrSingleFaults : Prop :=
  (∀ s t : State, s.halted = false → s.lastFault = none → step s = .next t →
    (EndedCleanly t ↔ AtHalt s) ∧ (∀ f, EndedByFault t f ↔ FaultsWith s f) ∧
    (t.halted = true → AtHalt s ∨ ∃ f, FaultsWith s f) ∧ (t.halted = false → t.lastFault = none)) ∧
  ∀ (s t : State) (maxSteps n : Nat), s.halted = false → s.lastFault = none → s.run maxSteps = .next (n, t) →
    (t.halted = false → n = maxSteps ∧ t.lastFault = none ∧ t.runState = .stopped) ∧
    (t.halted = true → ∃ (k : Nat) (v : State), n = k + 1 ∧
      Sys2Proof.core.run k ({ s with running := true } : State) = .next v ∧ v.halted = false ∧ v.lastFault = none ∧
      ((EndedCleanly t ∧ AtHalt v) ∨ ∃ f, EndedByFault t f ∧ FaultsWith v f))

/-- R26: the binding table is never changed by any step, reset, instruction or host operation. -/
def Obligations.BindingTableNeverChanges : Prop :=
  (∀ (i : Instr) (s t : State), exec i s = .next t → t.mmioTable = s.mmioTable) ∧
  (∀ s t : State, step s = .next t → t.mmioTable = s.mmioTable) ∧
  (∀ (op : HostOp) (s t : State), hostApply op s = .next t → t.mmioTable = s.mmioTable)

/-- R24 and R104, with decision D16 for reset: only `set_syscall_handler` changes the handler slot, and it changes
nothing else. -/
def Obligations.HandlerSlotChangesOnlyByItsPort : Prop :=
  (∀ (op : HostOp) (s t : State), hostApply op s = .next t → (∀ h, op ≠ .setSyscallHandler h) →
    t.handler = s.handler) ∧
  (∀ (s : State) (h : Option HandlerId), tableWellFormed s.mmioTable = true →
    hostApply (.setSyscallHandler h) s = .next { s with handler := h })

/-- R106: `pc` changes by the advance of a step (alone or in a `run`), by reset, by `set_pc` and by `load_program`, and
by nothing else; an instruction's own execution leaves it. -/
def Obligations.PcChangesOnlyWhereTheRulesSay : Prop :=
  (∀ (i : Instr) (s t : State), exec i s = .next t → t.pc = s.pc) ∧
  (∀ (op : HostOp) (s t : State), hostApply op s = .next t → op ≠ .step → (∀ n, op ≠ .run n) → op ≠ .reset →
    (∀ a, op ≠ .setPc a) → (∀ bytes a, op ≠ .loadProgram bytes a) → t.pc = s.pc)

/-- R85 (decision D21; log entry 16): the core behaves identically with and without an observer: two states that differ
in the trace port alone step to states that differ in the trace port alone, or stop for the same reason. -/
def Obligations.TracePortDoesNotInfluenceTheCore : Prop :=
  ∀ s s' : State, s.eraseTrace = s'.eraseTrace →
    (∀ t, step s = .next t → ∃ t', step s' = .next t' ∧ t.eraseTrace = t'.eraseTrace) ∧
    (∀ f, step s = .fault f → step s' = .fault f) ∧ (∀ r, step s = .refused r → step s' = .refused r)

/-- R21: no rule of a step reads `running`: two states that differ in it alone step to states that differ in it alone
(a halted core keeps it), or stop for the same reason. -/
def Obligations.StepDoesNotReadRunning : Prop :=
  ∀ s : State,
    (∀ t, step s = .next t →
      ∃ t', step { s with running := !s.running } = .next t' ∧ { t with running := false } = { t' with running := false }) ∧
    (∀ f, step s = .fault f → step { s with running := !s.running } = .fault f) ∧
    (∀ r, step s = .refused r → step { s with running := !s.running } = .refused r)

/-- R50: no instruction can observe RAM that lies under a device range, with or without a handler connected. The one
step left out is that of a SYSCALL with a connected handler, since the handler may reach that RAM through the raw
bus. -/
def Obligations.ShadowedRamIsUnobservable : Prop :=
  ∀ s s' : State, Memory.wf s.ram = true → Memory.wf s'.ram = true → AgreeButShadowedRam s s' →
    (s.handler ≠ none → ∀ (w : Word) (u : State), s.fetch = .ok (w, u) → decodeWord w ≠ .ok .syscall) →
    (∀ t, step s = .next t → ∃ t', step s' = .next t' ∧ AgreeButShadowedRam t t') ∧
    (∀ r, step s = .refused r → step s' = .refused r)

/-! ### Reset, loading and the debug port (60_exceptions.md, 70_reset_and_hazards.md) -/

/-- R150, with decision D25 for the registers, `pc` and the flags: the machine after creation. -/
def Obligations.CreationState : Prop :=
  (∀ r : RegIdx, State.reset.getReg r = 0#32) ∧ State.reset.pc = 0#16 ∧ State.reset.halted = false ∧
  State.reset.running = false ∧ State.reset.runState = .stopped ∧ State.reset.lastFault = none ∧
  State.reset.handler = none ∧ ∀ a : Nat, Memory.read State.reset.ram a = 0#8

/-- R151 and R152, with decisions D13, D15, D16: the reset input clears the registers, `pc`, the flags and the retained
fault, in any state, and leaves RAM, the handler slot, the wiring and the devices alone. -/
def Obligations.ResetInputClearsTheProgramState : Prop :=
  ∀ s : State, tableWellFormed s.mmioTable = true →
    ∃ t, hostApply .reset s = .next t ∧ (∀ r, t.getReg r = 0#32) ∧ t.pc = 0#16 ∧ t.halted = false ∧
      t.running = false ∧ t.runState = .stopped ∧ t.lastFault = none ∧
      t.ram = s.ram ∧ t.handler = s.handler ∧ SamePorts s t ∧ SameTrace s t

/-- R154 and R155, with decisions D11, D18, D24: a load that fits writes the bytes in order to RAM (never to a device),
sets `pc` unchecked and changes nothing else; one that does not fit takes fault entry (R122) with `InsufficientSpace`
and changes neither RAM nor `pc`. That fault entry clears `running` and retains the kind are decisions D12 and D13 (log
entry 11). -/
def Obligations.LoadProgramPlacesTheBytes : Prop :=
  ∀ (s : State) (bytes : List Byte) (start : Addr), CoreInv s →
    (start.toNat + bytes.length ≤ 0x10000 →
      ∃ t, hostApply (.loadProgram bytes start) s = .next t ∧ t.pc = start ∧
        (∀ (i : Nat) (h : i < bytes.length), Memory.read t.ram (start.toNat + i) = bytes[i]) ∧
        (∀ b : Nat, (b < start.toNat ∨ start.toNat + bytes.length ≤ b) → Memory.read t.ram b = Memory.read s.ram b) ∧
        SameRegsBut [] s t ∧ SamePorts s t ∧ SameTrace s t ∧
        t.halted = s.halted ∧ t.running = s.running ∧ t.lastFault = s.lastFault ∧ t.handler = s.handler) ∧
    (0x10000 < start.toNat + bytes.length →
      hostApply (.loadProgram bytes start) s =
        .next { s with halted := true, running := false, lastFault := some .insufficientSpace })

/-- R144 and R12: the debug port reads and writes each of the sixteen registers by its index, in every run state, and
no other register with it; any other index is `InvalidRegisterIndex`. -/
def Obligations.DebugPortReachesEachRegister : Prop :=
  ∀ (s : State) (index : Int) (v : Word),
    (¬ (0 ≤ index ∧ index ≤ 15) →
      s.directCall (.get index) = .error .invalidRegisterIndex ∧
      s.directCall (.set index v) = .error .invalidRegisterIndex ∧ s.afterCall (.set index v) = s) ∧
    (∀ r : RegIdx, index = (r.val : Int) →
      s.directCall (.get index) = .ok (.word (s.getReg r), s) ∧
      ∃ t, s.directCall (.set index v) = .ok (.done, t) ∧ t.getReg r = v ∧ SameRegsBut [r] s t ∧
        SameControl s t ∧ SameMemory s t ∧ SamePorts s t ∧ SameTrace s t)

/-- R145: `set_pc` checks the range and nothing else, and changes `pc` and nothing else; `get_pc` returns `pc`. -/
def Obligations.DebugPortSetsPc : Prop :=
  ∀ (s : State) (address : Int),
    s.getState.pc = s.pc ∧
    (¬ (0 ≤ address ∧ address ≤ 0xFFFF) → s.setPc address = .error .invalidAddress) ∧
    (0 ≤ address → address ≤ 0xFFFF →
      ∃ t, s.setPc address = .ok t ∧ (t.pc.toNat : Int) = address ∧ t = { s with pc := t.pc })

/-- R147 and R50, with decision D19: `dump_memory` returns the cells of the backing store in ascending order, device
ranges included, and reaches no device; outside the space it is `AddressOutOfBounds`. -/
def Obligations.DumpMemoryReadsTheBackingStore : Prop :=
  ∀ (s : State) (start length : Nat),
    (0x10000 ≤ start ∨ 0x10000 < start + length →
      s.directCall (.dumpMemory start length) = .error .addressOutOfBounds) ∧
    (start < 0x10000 → start + length ≤ 0x10000 →
      ∃ bytes, s.directCall (.dumpMemory start length) = .ok (.bytes bytes, s) ∧ bytes.length = length ∧
        ∀ (i : Nat) (h : i < bytes.length), bytes[i] = Memory.read s.ram (start + i))

/-- R153 (decision D15 for its name): after `clear_memory` every cell is zero and nothing else has changed. -/
def Obligations.ClearMemoryZeroesEveryCell : Prop :=
  ∀ s : State, tableWellFormed s.mmioTable = true →
    ∃ t, hostApply .clearMemory s = .next t ∧ (∀ a : Nat, Memory.read t.ram a = 0#8) ∧ Memory.wf t.ram = true ∧
      SameRegsBut [] s t ∧ SameControl s t ∧ SamePorts s t ∧ SameTrace s t

/-- R148, decision D11: a direct call or a `set_pc` that raises a fault changes no state at all. -/
def Obligations.DirectCallFaultsChangeNothing : Prop :=
  ∀ s : State, tableWellFormed s.mmioTable = true →
    (∀ (c : DirectCall) (f : FaultKind), s.directCall c = .error f → hostApply (.call c) s = .next s) ∧
    (∀ (address : Int) (f : FaultKind), s.setPc address = .error f → hostApply (.setPc address) s = .next s)

/-- Decisions D7 and D20 (log entries 3 and 15): the model refuses exactly an ill-formed table and a direct `execute`
on a halted core. -/
def Obligations.RefusalsAreExactlyTheTwoOfTheSpec : Prop :=
  (∀ s : State, (∃ r, step s = .refused r) ↔ tableWellFormed s.mmioTable = false) ∧
  (∀ (op : HostOp) (s : State), (∃ r, hostApply op s = .refused r) ↔
    tableWellFormed s.mmioTable = false ∨ (s.halted = true ∧ ∃ w, op = .execute w))

/-- The placing of an instruction (log entry 20): on any well-formed table, in a device range as well, the next step
fetches exactly the placed word. -/
def Obligations.PlacedWordIsFetchedNext : Prop :=
  ∀ (s : State) (w : Word), tableWellFormed s.mmioTable = true → Memory.wf s.ram = true →
    ∃ u, Fetches (s.placeFetchWord w) w u ∧ SameRegsBut [] s u ∧ u.handler = s.handler ∧
      (PcAligned s → u.pc = s.pc)

/-! ### Reachable states and the inspection view -/

/-- In every state the machine can come to by steps and host operations, from creation with any well-formed table, with
any answers of the devices and the handler, the invariant holds (R125, R22, 00_scope.md R9; decisions D10, D12, D13,
D25; log entries 1, 5, 11). -/
def Obligations.ReachableStatesMeetTheInvariant : Prop := ∀ s : State, Reachable s → CoreInv s

/-- R146 and R22: `get_state` returns `pc`, the sixteen registers in index order and the run state, which is Halted if
`halted`, else Running if `running`, else Stopped; it returns `last_fault` as well (decision D19; log entry 18); and
neither it nor `get_pc` changes anything. -/
def Obligations.InspectionViewShowsTheState : Prop :=
  ∀ s : State,
    s.getState.pc = s.pc ∧ (∀ r : RegIdx, s.getState.registers[r] = s.getReg r) ∧
    s.getState.lastFault = s.lastFault ∧
    (s.getState.runState = .halted ↔ s.halted = true) ∧
    (s.getState.runState = .running ↔ s.halted = false ∧ s.running = true) ∧
    (s.getState.runState = .stopped ↔ s.halted = false ∧ s.running = false) ∧
    (tableWellFormed s.mmioTable = true → hostApply .getState s = .next s ∧ hostApply .getPc s = .next s)
end

