-- ==== Sys2Proof/Laws/State.lean ====
section
/-! SUPPORT. One lemma per field per update of State, so that no later proof unfolds a record update. -/

namespace Sys2Proof.Machine

variable (s : State) (i j : RegIdx) (v : Word) (f : FaultKind) (e : PortEvent) (te : TraceEvent)

/-! ### setReg -/

theorem State.getReg_setReg : (s.setReg i v).getReg j = if j = i then v else s.getReg j := by
  simp [State.getReg, State.setReg, Vector.getElem_set, Fin.ext_iff, eq_comm]

@[simp] theorem State.getReg_setReg_self : (s.setReg i v).getReg i = v := by simp [State.getReg_setReg]

@[simp] theorem State.getReg_setReg_of_ne (h : j ≠ i) : (s.setReg i v).getReg j = s.getReg j := by
  simp [State.getReg_setReg, h]

@[simp] theorem State.setReg_pc : (s.setReg i v).pc = s.pc := rfl
@[simp] theorem State.setReg_halted : (s.setReg i v).halted = s.halted := rfl
@[simp] theorem State.setReg_running : (s.setReg i v).running = s.running := rfl
@[simp] theorem State.setReg_lastFault : (s.setReg i v).lastFault = s.lastFault := rfl
@[simp] theorem State.setReg_handler : (s.setReg i v).handler = s.handler := rfl
@[simp] theorem State.setReg_ram : (s.setReg i v).ram = s.ram := rfl
@[simp] theorem State.setReg_mmioTable : (s.setReg i v).mmioTable = s.mmioTable := rfl
@[simp] theorem State.setReg_traceAttached : (s.setReg i v).traceAttached = s.traceAttached := rfl
@[simp] theorem State.setReg_traceLog : (s.setReg i v).traceLog = s.traceLog := rfl
@[simp] theorem State.setReg_portLog : (s.setReg i v).portLog = s.portLog := rfl
@[simp] theorem State.setReg_deviceReplies : (s.setReg i v).deviceReplies = s.deviceReplies := rfl
@[simp] theorem State.setReg_handlerReplies : (s.setReg i v).handlerReplies = s.handlerReplies := rfl
@[simp] theorem State.setReg_draws : (s.setReg i v).draws = s.draws := rfl

/-! ### faultEntry -/

@[simp] theorem State.faultEntry_regs : (s.faultEntry f).regs = s.regs := rfl
@[simp] theorem State.faultEntry_getReg : (s.faultEntry f).getReg i = s.getReg i := rfl
@[simp] theorem State.faultEntry_pc : (s.faultEntry f).pc = s.pc := rfl
@[simp] theorem State.faultEntry_halted : (s.faultEntry f).halted = true := rfl
@[simp] theorem State.faultEntry_running : (s.faultEntry f).running = false := rfl
@[simp] theorem State.faultEntry_lastFault : (s.faultEntry f).lastFault = some f := rfl
@[simp] theorem State.faultEntry_handler : (s.faultEntry f).handler = s.handler := rfl
@[simp] theorem State.faultEntry_ram : (s.faultEntry f).ram = s.ram := rfl
@[simp] theorem State.faultEntry_mmioTable : (s.faultEntry f).mmioTable = s.mmioTable := rfl
@[simp] theorem State.faultEntry_traceAttached : (s.faultEntry f).traceAttached = s.traceAttached := rfl
@[simp] theorem State.faultEntry_traceLog : (s.faultEntry f).traceLog = s.traceLog := rfl
@[simp] theorem State.faultEntry_portLog : (s.faultEntry f).portLog = s.portLog := rfl
@[simp] theorem State.faultEntry_deviceReplies : (s.faultEntry f).deviceReplies = s.deviceReplies := rfl
@[simp] theorem State.faultEntry_handlerReplies : (s.faultEntry f).handlerReplies = s.handlerReplies := rfl
@[simp] theorem State.faultEntry_draws : (s.faultEntry f).draws = s.draws := rfl

/-! ### setHalted -/

@[simp] theorem State.setHalted_regs : s.setHalted.regs = s.regs := rfl
@[simp] theorem State.setHalted_getReg : s.setHalted.getReg i = s.getReg i := rfl
@[simp] theorem State.setHalted_pc : s.setHalted.pc = s.pc := rfl
@[simp] theorem State.setHalted_halted : s.setHalted.halted = true := rfl
@[simp] theorem State.setHalted_running : s.setHalted.running = false := rfl
@[simp] theorem State.setHalted_lastFault : s.setHalted.lastFault = s.lastFault := rfl
@[simp] theorem State.setHalted_handler : s.setHalted.handler = s.handler := rfl
@[simp] theorem State.setHalted_ram : s.setHalted.ram = s.ram := rfl
@[simp] theorem State.setHalted_mmioTable : s.setHalted.mmioTable = s.mmioTable := rfl
@[simp] theorem State.setHalted_traceAttached : s.setHalted.traceAttached = s.traceAttached := rfl
@[simp] theorem State.setHalted_traceLog : s.setHalted.traceLog = s.traceLog := rfl
@[simp] theorem State.setHalted_portLog : s.setHalted.portLog = s.portLog := rfl
@[simp] theorem State.setHalted_deviceReplies : s.setHalted.deviceReplies = s.deviceReplies := rfl
@[simp] theorem State.setHalted_handlerReplies : s.setHalted.handlerReplies = s.handlerReplies := rfl
@[simp] theorem State.setHalted_draws : s.setHalted.draws = s.draws := rfl

/-! ### advancePc -/

@[simp] theorem State.advancePc_regs : s.advancePc.regs = s.regs := rfl
@[simp] theorem State.advancePc_getReg : s.advancePc.getReg i = s.getReg i := rfl
@[simp] theorem State.advancePc_pc : s.advancePc.pc = s.pc + 4#16 := rfl
@[simp] theorem State.advancePc_halted : s.advancePc.halted = s.halted := rfl
@[simp] theorem State.advancePc_running : s.advancePc.running = s.running := rfl
@[simp] theorem State.advancePc_lastFault : s.advancePc.lastFault = s.lastFault := rfl
@[simp] theorem State.advancePc_handler : s.advancePc.handler = s.handler := rfl
@[simp] theorem State.advancePc_ram : s.advancePc.ram = s.ram := rfl
@[simp] theorem State.advancePc_mmioTable : s.advancePc.mmioTable = s.mmioTable := rfl
@[simp] theorem State.advancePc_traceAttached : s.advancePc.traceAttached = s.traceAttached := rfl
@[simp] theorem State.advancePc_traceLog : s.advancePc.traceLog = s.traceLog := rfl
@[simp] theorem State.advancePc_portLog : s.advancePc.portLog = s.portLog := rfl
@[simp] theorem State.advancePc_deviceReplies : s.advancePc.deviceReplies = s.deviceReplies := rfl
@[simp] theorem State.advancePc_handlerReplies : s.advancePc.handlerReplies = s.handlerReplies := rfl
@[simp] theorem State.advancePc_draws : s.advancePc.draws = s.draws := rfl

/-! ### emitPort -/

@[simp] theorem State.emitPort_regs : (s.emitPort e).regs = s.regs := rfl
@[simp] theorem State.emitPort_getReg : (s.emitPort e).getReg i = s.getReg i := rfl
@[simp] theorem State.emitPort_pc : (s.emitPort e).pc = s.pc := rfl
@[simp] theorem State.emitPort_halted : (s.emitPort e).halted = s.halted := rfl
@[simp] theorem State.emitPort_running : (s.emitPort e).running = s.running := rfl
@[simp] theorem State.emitPort_lastFault : (s.emitPort e).lastFault = s.lastFault := rfl
@[simp] theorem State.emitPort_handler : (s.emitPort e).handler = s.handler := rfl
@[simp] theorem State.emitPort_ram : (s.emitPort e).ram = s.ram := rfl
@[simp] theorem State.emitPort_mmioTable : (s.emitPort e).mmioTable = s.mmioTable := rfl
@[simp] theorem State.emitPort_traceAttached : (s.emitPort e).traceAttached = s.traceAttached := rfl
@[simp] theorem State.emitPort_traceLog : (s.emitPort e).traceLog = s.traceLog := rfl
@[simp] theorem State.emitPort_portLog : (s.emitPort e).portLog = s.portLog ++ [e] := rfl
@[simp] theorem State.emitPort_deviceReplies : (s.emitPort e).deviceReplies = s.deviceReplies := rfl
@[simp] theorem State.emitPort_handlerReplies : (s.emitPort e).handlerReplies = s.handlerReplies := rfl
@[simp] theorem State.emitPort_draws : (s.emitPort e).draws = s.draws := rfl

/-! ### emitTrace -/

theorem State.emitTrace_eq :
    s.emitTrace te = { s with traceLog := if s.traceAttached then s.traceLog ++ [te] else s.traceLog } := by
  unfold State.emitTrace; split <;> rfl

@[simp] theorem State.emitTrace_regs : (s.emitTrace te).regs = s.regs := by simp [State.emitTrace_eq]
@[simp] theorem State.emitTrace_getReg : (s.emitTrace te).getReg i = s.getReg i := by simp [State.getReg]
@[simp] theorem State.emitTrace_pc : (s.emitTrace te).pc = s.pc := by simp [State.emitTrace_eq]
@[simp] theorem State.emitTrace_halted : (s.emitTrace te).halted = s.halted := by simp [State.emitTrace_eq]
@[simp] theorem State.emitTrace_running : (s.emitTrace te).running = s.running := by simp [State.emitTrace_eq]
@[simp] theorem State.emitTrace_lastFault : (s.emitTrace te).lastFault = s.lastFault := by simp [State.emitTrace_eq]
@[simp] theorem State.emitTrace_handler : (s.emitTrace te).handler = s.handler := by simp [State.emitTrace_eq]
@[simp] theorem State.emitTrace_ram : (s.emitTrace te).ram = s.ram := by simp [State.emitTrace_eq]
@[simp] theorem State.emitTrace_mmioTable : (s.emitTrace te).mmioTable = s.mmioTable := by simp [State.emitTrace_eq]
@[simp] theorem State.emitTrace_traceAttached : (s.emitTrace te).traceAttached = s.traceAttached := by
  simp [State.emitTrace_eq]
@[simp] theorem State.emitTrace_traceLog :
    (s.emitTrace te).traceLog = if s.traceAttached then s.traceLog ++ [te] else s.traceLog := by
  simp [State.emitTrace_eq]
@[simp] theorem State.emitTrace_portLog : (s.emitTrace te).portLog = s.portLog := by simp [State.emitTrace_eq]
@[simp] theorem State.emitTrace_deviceReplies : (s.emitTrace te).deviceReplies = s.deviceReplies := by
  simp [State.emitTrace_eq]
@[simp] theorem State.emitTrace_handlerReplies : (s.emitTrace te).handlerReplies = s.handlerReplies := by
  simp [State.emitTrace_eq]
@[simp] theorem State.emitTrace_draws : (s.emitTrace te).draws = s.draws := by simp [State.emitTrace_eq]

/-! ### hostReset -/

@[simp] theorem State.hostReset_getReg : s.hostReset.getReg i = 0 := by simp [State.hostReset, State.getReg]
@[simp] theorem State.hostReset_pc : s.hostReset.pc = 0#16 := rfl
@[simp] theorem State.hostReset_halted : s.hostReset.halted = false := rfl
@[simp] theorem State.hostReset_running : s.hostReset.running = false := rfl
@[simp] theorem State.hostReset_lastFault : s.hostReset.lastFault = none := rfl
@[simp] theorem State.hostReset_handler : s.hostReset.handler = s.handler := rfl
@[simp] theorem State.hostReset_ram : s.hostReset.ram = s.ram := rfl
@[simp] theorem State.hostReset_mmioTable : s.hostReset.mmioTable = s.mmioTable := rfl
@[simp] theorem State.hostReset_portLog : s.hostReset.portLog = s.portLog := rfl

end Sys2Proof.Machine
end

