-- ==== Sys2Proof/Laws/Words.lean ====
section
/-! SUPPORT. Words and their four bytes: taking a byte of a packed word, and packing the bytes of a word. -/

namespace Sys2Proof

/-- A bit of a packed word is a bit of one of its bytes. -/
theorem getLsbD_packWord (a b c d : Byte) (i : Nat) :
    (packWord a b c d).getLsbD i =
      if i < 8 then d.getLsbD i else if i < 16 then c.getLsbD (i - 8)
      else if i < 24 then b.getLsbD (i - 16) else a.getLsbD (i - 24) := by
  have h1 : (i - 8 < 8) = (i < 16) := by simp only [eq_iff_iff]; omega
  have h2 : (i - 8 - 8 < 8) = (i < 24) := by simp only [eq_iff_iff]; omega
  simp only [packWord, BitVec.getLsbD_append, h1, h2]
  simp only [Nat.sub_sub]

/-- The byte of a packed word that starts at bit `k`. -/
theorem extractLsb_packWord (a b c d : Byte) (k : Nat) (x : Byte)
    (h : ∀ i < 8, (packWord a b c d).getLsbD (k + i) = x.getLsbD i) : (packWord a b c d).extractLsb' k 8 = x :=
  BitVec.eq_of_getLsbD_eq fun i hi => by simp only [BitVec.getLsbD_extractLsb', hi, decide_true, Bool.true_and, h i hi]

@[simp] theorem byte0_packWord (a b c d : Byte) : byte0 (packWord a b c d) = a :=
  extractLsb_packWord a b c d 24 a fun i hi => by
    rw [getLsbD_packWord]; split_ifs <;> first | omega | (congr 1; omega)

@[simp] theorem byte1_packWord (a b c d : Byte) : byte1 (packWord a b c d) = b :=
  extractLsb_packWord a b c d 16 b fun i hi => by
    rw [getLsbD_packWord]; split_ifs <;> first | omega | (congr 1; omega)

@[simp] theorem byte2_packWord (a b c d : Byte) : byte2 (packWord a b c d) = c :=
  extractLsb_packWord a b c d 8 c fun i hi => by
    rw [getLsbD_packWord]; split_ifs <;> first | omega | (congr 1; omega)

@[simp] theorem byte3_packWord (a b c d : Byte) : byte3 (packWord a b c d) = d :=
  extractLsb_packWord a b c d 0 d fun i hi => by
    rw [getLsbD_packWord]; split_ifs <;> first | omega | (congr 1; omega)

@[simp] theorem packWord_bytes (v : Word) : packWord (byte0 v) (byte1 v) (byte2 v) (byte3 v) = v := by
  apply BitVec.eq_of_getLsbD_eq; intro i hi
  simp only [packWord, byte0, byte1, byte2, byte3, BitVec.getLsbD_append, BitVec.getLsbD_extractLsb']
  interval_cases i <;> simp

/-- A packed word as a number: big-endian (20_memory.md R39). -/
theorem toNat_packWord (a b c d : Byte) :
    (packWord a b c d).toNat = a.toNat * 2 ^ 24 + b.toNat * 2 ^ 16 + c.toNat * 2 ^ 8 + d.toNat := by
  simp only [packWord, BitVec.toNat_append]
  rw [← Nat.shiftLeft_add_eq_or_of_lt d.isLt, ← Nat.shiftLeft_add_eq_or_of_lt c.isLt,
    ← Nat.shiftLeft_add_eq_or_of_lt b.isLt]
  simp only [Nat.shiftLeft_eq]
  omega

theorem toNat_byte0 (v : Word) : (byte0 v).toNat = v.toNat / 2 ^ 24 := by
  simp [byte0, BitVec.extractLsb'_toNat, Nat.shiftRight_eq_div_pow]; omega

theorem toNat_byte1 (v : Word) : (byte1 v).toNat = v.toNat / 2 ^ 16 % 256 := by
  simp [byte1, BitVec.extractLsb'_toNat, Nat.shiftRight_eq_div_pow]

theorem toNat_byte2 (v : Word) : (byte2 v).toNat = v.toNat / 2 ^ 8 % 256 := by
  simp [byte2, BitVec.extractLsb'_toNat, Nat.shiftRight_eq_div_pow]

theorem toNat_byte3 (v : Word) : (byte3 v).toNat = v.toNat % 256 := by
  simp [byte3, BitVec.extractLsb'_toNat]

@[simp] theorem decodeBytes_bytesOfWord (v : Word) : decodeBytes (bytesOfWord v) = decodeWord v := by
  simp [decodeBytes, bytesOfWord]

end Sys2Proof
end

