-- ==== Sys2Proof/Laws/Memory.lean ====
section
/-! SUPPORT. The laws of the RAM cells: read after write, and that every memory operation keeps the canonical form. -/

namespace Sys2Proof.Machine

@[simp] theorem Memory.read_nil (a : Nat) : Memory.read [] a = Memory.unlisted := rfl

@[simp] theorem Memory.wf_nil : Memory.wf [] = true := rfl

theorem Memory.wfFrom_cons {lo a : Nat} {v : Byte} {m : Memory} :
    Memory.wfFrom lo ((a, v) :: m) = true ↔
      lo ≤ a ∧ a < Config.memSize ∧ v ≠ Memory.unlisted ∧ Memory.wfFrom (a + 1) m = true := by
  simp [Memory.wfFrom, and_assoc]

/-- Every listed address is at or above the bound. -/
theorem Memory.wfFrom_mono {lo lo' : Nat} {m : Memory} (h : Memory.wfFrom lo m = true) (hle : lo' ≤ lo) :
    Memory.wfFrom lo' m = true := by
  cases m with
  | nil => rfl
  | cons c m =>
    obtain ⟨a, v⟩ := c
    rw [Memory.wfFrom_cons] at h ⊢
    exact ⟨hle.trans h.1, h.2⟩

theorem Memory.read_of_lt_bound {lo b : Nat} {m : Memory} (h : Memory.wfFrom lo m = true) (hb : b < lo) :
    m.read b = Memory.unlisted := by
  cases m with
  | nil => rfl
  | cons c m =>
    obtain ⟨a, v⟩ := c
    rw [Memory.wfFrom_cons] at h
    simp [Memory.read, show b < a by omega]

theorem Memory.write_wfFrom {lo b : Nat} {w : Byte} {m : Memory} (h : Memory.wfFrom lo m = true) (hlo : lo ≤ b)
    (hb : b < Config.memSize) : Memory.wfFrom lo (m.write b w) = true := by
  induction m generalizing lo with
  | nil =>
    unfold Memory.write
    split
    · rfl
    · exact Memory.wfFrom_cons.2 ⟨hlo, hb, ‹_›, rfl⟩
  | cons c m ih =>
    obtain ⟨a, v⟩ := c
    have hc := Memory.wfFrom_cons.1 h
    unfold Memory.write
    split
    · split
      · exact h
      · exact Memory.wfFrom_cons.2 ⟨hlo, hb, ‹_›, Memory.wfFrom_cons.2 ⟨by omega, hc.2⟩⟩
    · split
      · subst_vars
        split
        · exact Memory.wfFrom_mono hc.2.2.2 (by omega)
        · exact Memory.wfFrom_cons.2 ⟨hlo, hb, ‹_›, hc.2.2.2⟩
      · exact Memory.wfFrom_cons.2 ⟨hc.1, hc.2.1, hc.2.2.1, ih hc.2.2.2 (by omega)⟩

/-- Writing inside the address space keeps the canonical form. -/
theorem Memory.write_wf {b : Nat} {w : Byte} {m : Memory} (h : Memory.wf m = true) (hb : b < Config.memSize) :
    Memory.wf (m.write b w) = true :=
  Memory.write_wfFrom h (Nat.zero_le b) hb

theorem Memory.read_write_from {lo b : Nat} {w : Byte} {m : Memory} (h : Memory.wfFrom lo m = true) (a : Nat) :
    (m.write b w).read a = if a = b then w else m.read a := by
  induction m generalizing lo with
  | nil =>
    simp only [Memory.write]
    split
    · split <;> simp_all
    · simp only [Memory.read]
      split
      · simp [show a ≠ b by omega]
      · rfl
  | cons c m ih =>
    obtain ⟨k, v⟩ := c
    have hc := Memory.wfFrom_cons.1 h
    have below : ∀ x ≤ k, Memory.read m x = Memory.unlisted := fun x hx => Memory.read_of_lt_bound hc.2.2.2 (by omega)
    unfold Memory.write
    split
    · split
      · by_cases hab : a = b
        · simp [Memory.read, *]
        · simp [hab]
      · by_cases hab : a = b
        · simp [hab, Memory.read]
        · by_cases hlt : a < b
          · simp [Memory.read, hlt, show a < k by omega, hab]
          · simp [Memory.read, hlt, hab]
    · split
      · subst_vars
        split
        · by_cases hab : a = k
          · simp [*]
          · by_cases hlt : a < k
            · simp [Memory.read, hlt, hab, below a (by omega)]
            · simp [Memory.read, hlt, hab]
        · by_cases hab : a = k
          · simp [hab, Memory.read]
          · simp [Memory.read, hab]
      · simp only [Memory.read]
        split
        · simp [show a ≠ b by omega]
        · split
          · simp [show a ≠ b by omega]
          · exact ih hc.2.2.2

/-- A read after a write: the written cell holds the value, every other cell what it held. -/
theorem Memory.read_write {m : Memory} (h : Memory.wf m = true) (b : Nat) (w : Byte) (a : Nat) :
    (m.write b w).read a = if a = b then w else m.read a :=
  Memory.read_write_from h a

theorem Memory.writeBytes_wf {bytes : List Byte} {m : Memory} {a : Nat} (h : Memory.wf m = true)
    (hb : a + bytes.length ≤ Config.memSize) : Memory.wf (m.writeBytes a bytes) = true := by
  induction bytes generalizing m a with
  | nil => exact h
  | cons b bs ih =>
    simp only [List.length_cons] at hb
    exact ih (Memory.write_wf h (by omega)) (by omega)

theorem Memory.writeWord_wf {m : Memory} {a : Nat} {v : Word} (h : Memory.wf m = true) (hb : a + 3 < Config.memSize) :
    Memory.wf (m.writeWord a v) = true :=
  Memory.write_wf (Memory.write_wf (Memory.write_wf (Memory.write_wf h (by omega)) (by omega)) (by omega)) hb

theorem Memory.read_writeWord {m : Memory} {a : Nat} {v : Word} (h : Memory.wf m = true)
    (hb : a + 3 < Config.memSize) (b : Nat) :
    (m.writeWord a v).read b =
      if b = a + 3 then byte3 v else if b = a + 2 then byte2 v else if b = a + 1 then byte1 v
      else if b = a then byte0 v else m.read b := by
  have h0 := Memory.write_wf (b := a) (w := byte0 v) h (by omega)
  have h1 := Memory.write_wf (b := a + 1) (w := byte1 v) h0 (by omega)
  have h2 := Memory.write_wf (b := a + 2) (w := byte2 v) h1 (by omega)
  rw [Memory.writeWord, Memory.read_write h2, Memory.read_write h1, Memory.read_write h0, Memory.read_write h]

end Sys2Proof.Machine
end

