-- ==== Sys2Proof/Laws/Ops.lean ====
section
/-! SUPPORT. For each shared operation, once, everything it can do: what it answers, what it keeps, and that it keeps
the canonical form of memory. -/

namespace Sys2Proof.Machine

/-! ### Address checks -/

theorem byteAddress_ok {addr : Int} {a : Nat} : byteAddress addr = .ok a ↔ addr = a ∧ a < Config.memSize := by
  unfold byteAddress
  split
  · simp; omega
  · simp; omega

theorem wordAddress_ok {addr : Int} {a : Nat} :
    wordAddress addr = .ok a ↔ addr = a ∧ a < Config.memSize ∧ a % Config.wordBytes = 0 := by
  unfold wordAddress
  split
  · rename_i f hf
    simp only [reduceCtorEq, false_iff]
    rintro ⟨rfl, h, -⟩
    rw [byteAddress_ok.2 ⟨rfl, h⟩] at hf
    cases hf
  · rename_i b hb
    obtain ⟨rfl, hlt⟩ := byteAddress_ok.1 hb
    split
    · simp only [reduceCtorEq, Nat.cast_inj, false_iff]
      rintro ⟨rfl, -, h⟩
      exact absurd h ‹_›
    · simp only [Except.ok.injEq, Nat.cast_inj]
      exact ⟨fun h => ⟨h, h ▸ hlt, h ▸ not_not.1 ‹_›⟩, fun h => h.1⟩

/-- The core's own addresses pass the bounds check (20_memory.md R53). -/
@[simp] theorem byteAddress_coreAddress (a : Addr) : byteAddress (coreAddress a) = .ok a.toNat :=
  byteAddress_ok.2 ⟨rfl, a.isLt⟩

/-- The core's own addresses can fail the alignment check only (20_memory.md R53). -/
theorem wordAddress_coreAddress (a : Addr) :
    wordAddress (coreAddress a) = if a.toNat % Config.wordBytes = 0 then .ok a.toNat else .error .unalignedAccess := by
  simp [wordAddress]

/-- A word never runs past the top of memory (20_memory.md R38). -/
theorem wordAddress_fits {addr : Int} {a : Nat} (h : wordAddress addr = .ok a) : a + 3 < Config.memSize := by
  obtain ⟨-, hlt, hal⟩ := wordAddress_ok.1 h
  simp only [Config.memSize, Config.wordBytes] at *
  omega

/-! ### What an operation keeps -/

/-- The control state, the wiring and the trace port's attachment are kept: no component call and no device can touch
them (44_system.md R102, 20_memory.md R47). -/
structure ControlKept (s t : State) : Prop where
  pc : t.pc = s.pc
  halted : t.halted = s.halted
  running : t.running = s.running
  lastFault : t.lastFault = s.lastFault
  handler : t.handler = s.handler
  mmioTable : t.mmioTable = s.mmioTable
  traceAttached : t.traceAttached = s.traceAttached
  traceLog : t.traceLog = s.traceLog

/-- Everything of the core is kept: only the world outside moved on. -/
structure CoreKept (s t : State) : Prop extends ControlKept s t where
  regs : t.regs = s.regs
  ram : t.ram = s.ram
  handlerReplies : t.handlerReplies = s.handlerReplies

theorem ControlKept.refl (s : State) : ControlKept s s := ⟨rfl, rfl, rfl, rfl, rfl, rfl, rfl, rfl⟩

theorem ControlKept.trans {s t u : State} (h : ControlKept s t) (k : ControlKept t u) : ControlKept s u :=
  ⟨k.pc.trans h.pc, k.halted.trans h.halted, k.running.trans h.running, k.lastFault.trans h.lastFault,
    k.handler.trans h.handler, k.mmioTable.trans h.mmioTable, k.traceAttached.trans h.traceAttached,
    k.traceLog.trans h.traceLog⟩

theorem CoreKept.refl (s : State) : CoreKept s s := ⟨ControlKept.refl s, rfl, rfl, rfl⟩

theorem CoreKept.trans {s t u : State} (h : CoreKept s t) (k : CoreKept t u) : CoreKept s u :=
  ⟨h.toControlKept.trans k.toControlKept, k.regs.trans h.regs, k.ram.trans h.ram,
    k.handlerReplies.trans h.handlerReplies⟩

/-! ### Device ports -/

theorem State.emitPort_kept (s : State) (e : PortEvent) : CoreKept s (s.emitPort e) :=
  ⟨⟨rfl, rfl, rfl, rfl, rfl, rfl, rfl, rfl⟩, rfl, rfl, rfl⟩

theorem State.nextDeviceByte_kept (s : State) : CoreKept s s.nextDeviceByte.2 := by
  unfold State.nextDeviceByte
  split <;> exact ⟨⟨rfl, rfl, rfl, rfl, rfl, rfl, rfl, rfl⟩, rfl, rfl, rfl⟩

@[simp] theorem State.nextDeviceByte_portLog (s : State) : s.nextDeviceByte.2.portLog = s.portLog := by
  unfold State.nextDeviceByte; split <;> rfl

theorem State.devRead_kept (s : State) (d : DeviceId) (off : BitVec 16) : CoreKept s (s.devRead d off).2 :=
  s.nextDeviceByte_kept.trans (State.emitPort_kept _ _)

@[simp] theorem State.devRead_portLog (s : State) (d : DeviceId) (off : BitVec 16) :
    (s.devRead d off).2.portLog = s.portLog ++ [.devRead d off (s.devRead d off).1] := by
  simp [State.devRead]

theorem State.devWrite_kept (s : State) (d : DeviceId) (off : BitVec 16) (v : Byte) :
    CoreKept s (s.devWrite d off v) := s.emitPort_kept _

theorem State.devReadWord_kept (s : State) (d : DeviceId) (off : BitVec 16) : CoreKept s (s.devReadWord d off).2 :=
  (((s.devRead_kept d off).trans (State.devRead_kept _ _ _)).trans (State.devRead_kept _ _ _)).trans
    (State.devRead_kept _ _ _)

theorem State.devWriteWord_kept (s : State) (d : DeviceId) (off : BitVec 16) (v : Word) :
    CoreKept s (s.devWriteWord d off v) :=
  (((s.devWrite_kept _ _ _).trans (State.devWrite_kept _ _ _ _)).trans (State.devWrite_kept _ _ _ _)).trans
    (State.devWrite_kept _ _ _ _)

/-! ### The router -/

/-- A binding found covers the address (20_memory.md R45). -/
theorem lookup_some {t : List Binding} {a : Nat} {b : Binding} (h : lookup t a = some b) :
    b ∈ t ∧ b.base.toNat ≤ a ∧ a < b.base.toNat + b.length.toNat := by
  refine ⟨List.mem_of_find?_eq_some h, ?_⟩
  have := List.find?_some h
  simpa [Binding.covers] using this

theorem State.memReadByte_kept {s t : State} {addr : Int} {v : Byte} (h : s.memReadByte addr = .ok (v, t)) :
    CoreKept s t := by
  unfold State.memReadByte at h
  split at h
  · cases h
  · split at h
    · rw [show t = (s.devRead _ _).2 from by rw [Except.ok.inj h]]; exact s.devRead_kept _ _
    · cases h; exact CoreKept.refl s

/-- A routed word read changes nothing of the core. -/
theorem State.memReadWord_kept {s t : State} {addr : Int} {v : Word} (h : s.memReadWord addr = .ok (v, t)) :
    CoreKept s t := by
  unfold State.memReadWord at h
  split at h
  · cases h
  · split at h
    · rw [show t = (s.devReadWord _ _).2 from by rw [Except.ok.inj h]]; exact s.devReadWord_kept _ _
    · cases h; exact CoreKept.refl s

/-- Everything a routed byte write can do: nothing of the core, or one RAM cell. -/
theorem State.memWriteByte_cases {s t : State} {addr : Int} {v : Byte} (h : s.memWriteByte addr v = .ok t) :
    CoreKept s t ∨ ∃ a : Nat, addr = a ∧ a < Config.memSize ∧ t = { s with ram := s.ram.write a v } := by
  unfold State.memWriteByte at h
  split at h
  · cases h
  · split at h
    · cases h; exact .inl (s.devWrite_kept _ _ _)
    · cases h; exact .inr ⟨_, (byteAddress_ok.1 ‹_›).1, (byteAddress_ok.1 ‹_›).2, rfl⟩

/-- Everything a routed word write can do: nothing of the core, or the four cells of an aligned word. -/
theorem State.memWriteWord_cases {s t : State} {addr : Int} {v : Word} (h : s.memWriteWord addr v = .ok t) :
    CoreKept s t ∨ ∃ a, wordAddress addr = .ok a ∧ t = { s with ram := s.ram.writeWord a v } := by
  unfold State.memWriteWord at h
  split at h
  · cases h
  · split at h
    · cases h; exact .inl (s.devWriteWord_kept _ _ _)
    · cases h; exact .inr ⟨_, ‹_›, rfl⟩

/-- A routed word write keeps the registers, the control state and the canonical form of memory. -/
theorem State.memWriteWord_keeps {s t : State} {addr : Int} {v : Word} (h : s.memWriteWord addr v = .ok t) :
    ControlKept s t ∧ t.regs = s.regs ∧ (Memory.wf s.ram = true → Memory.wf t.ram = true) := by
  rcases State.memWriteWord_cases h with k | ⟨a, ha, rfl⟩
  · exact ⟨k.toControlKept, k.regs, fun w => by rw [k.ram]; exact w⟩
  · exact ⟨⟨rfl, rfl, rfl, rfl, rfl, rfl, rfl, rfl⟩, rfl, fun w => Memory.writeWord_wf w (wordAddress_fits ha)⟩

/-! ### Direct calls and the handler -/

theorem exceptMap_ok {α β : Type} {e : Except FaultKind α} {f : α → β} {b : β} (h : e.map f = .ok b) :
    ∃ a, e = .ok a ∧ f a = b := by
  cases e with
  | error _ => cases h
  | ok a => exact ⟨a, rfl, Except.ok.inj h⟩

/-- A direct call keeps the control state, the handler's coming replies and the canonical form of memory (44_system.md R102). -/
theorem State.directCall_keeps {s : State} {c : DirectCall} {r : CallResult × State} (h : s.directCall c = .ok r) :
    ControlKept s r.2 ∧ r.2.handlerReplies = s.handlerReplies ∧
      (Memory.wf s.ram = true → Memory.wf r.2.ram = true) := by
  have ofCore : ∀ {t}, CoreKept s t → ControlKept s t ∧ t.handlerReplies = s.handlerReplies ∧
      (Memory.wf s.ram = true → Memory.wf t.ram = true) :=
    fun k => ⟨k.toControlKept, k.handlerReplies, fun w => by rw [k.ram]; exact w⟩
  cases c with
  | get _ | busReadByte _ | busReadWord _ | dumpMemory _ _ =>
    obtain ⟨x, -, rfl⟩ := exceptMap_ok h; exact ofCore (CoreKept.refl s)
  | set index v =>
    obtain ⟨i, -, rfl⟩ := exceptMap_ok h
    exact ⟨⟨rfl, rfl, rfl, rfl, rfl, rfl, rfl, rfl⟩, rfl, id⟩
  | busWriteByte addr v =>
    obtain ⟨m, hm, rfl⟩ := exceptMap_ok h
    refine ⟨⟨rfl, rfl, rfl, rfl, rfl, rfl, rfl, rfl⟩, rfl, fun w => ?_⟩
    unfold busWriteByte at hm
    split at hm
    · cases hm
    · cases hm; exact Memory.write_wf w (byteAddress_ok.1 ‹_›).2
  | busWriteWord addr v =>
    obtain ⟨m, hm, rfl⟩ := exceptMap_ok h
    refine ⟨⟨rfl, rfl, rfl, rfl, rfl, rfl, rfl, rfl⟩, rfl, fun w => ?_⟩
    unfold busWriteWord at hm
    split at hm
    · cases hm
    · cases hm; exact Memory.writeWord_wf w (wordAddress_fits ‹_›)
  | busLoadBulk addr bytes =>
    obtain ⟨m, hm, rfl⟩ := exceptMap_ok h
    refine ⟨⟨rfl, rfl, rfl, rfl, rfl, rfl, rfl, rfl⟩, rfl, fun w => ?_⟩
    unfold busLoadBulk at hm
    split at hm
    · cases hm
    · split at hm
      · cases hm
      · cases hm; exact Memory.writeBytes_wf w (by omega)
  | memReadByte addr =>
    obtain ⟨⟨v, t⟩, hr, rfl⟩ := exceptMap_ok h; exact ofCore (State.memReadByte_kept hr)
  | memReadWord addr =>
    obtain ⟨⟨v, t⟩, hr, rfl⟩ := exceptMap_ok h; exact ofCore (State.memReadWord_kept hr)
  | memWriteByte addr v =>
    obtain ⟨t, ht, rfl⟩ := exceptMap_ok h
    rcases State.memWriteByte_cases ht with k | ⟨a, -, ha, rfl⟩
    · exact ofCore k
    · exact ⟨⟨rfl, rfl, rfl, rfl, rfl, rfl, rfl, rfl⟩, rfl, fun w => Memory.write_wf w ha⟩
  | memWriteWord addr v =>
    obtain ⟨t, ht, rfl⟩ := exceptMap_ok h
    rcases State.memWriteWord_cases ht with k | ⟨a, ha, rfl⟩
    · exact ofCore k
    · exact ⟨⟨rfl, rfl, rfl, rfl, rfl, rfl, rfl, rfl⟩, rfl, fun w => Memory.writeWord_wf w (wordAddress_fits ha)⟩

theorem State.afterCall_keeps (s : State) (c : DirectCall) :
    ControlKept s (s.afterCall c) ∧ (Memory.wf s.ram = true → Memory.wf (s.afterCall c).ram = true) := by
  unfold State.afterCall
  split
  · have k := State.directCall_keeps ‹_›; exact ⟨k.1, k.2.2⟩
  · exact ⟨ControlKept.refl s, id⟩

/-- However many calls a handler makes, it keeps the control state and the canonical form of memory. -/
theorem State.performCalls_keeps (s : State) (cs : List DirectCall) :
    ControlKept s (s.performCalls cs) ∧ (Memory.wf s.ram = true → Memory.wf (s.performCalls cs).ram = true) := by
  induction cs generalizing s with
  | nil => exact ⟨ControlKept.refl s, id⟩
  | cons c cs ih =>
    have k := s.afterCall_keeps c
    have l := ih (s.afterCall c)
    exact ⟨k.1.trans l.1, fun w => l.2 (k.2 w)⟩

theorem State.nextHandlerReply_keeps (s : State) :
    ControlKept s s.nextHandlerReply.2 ∧ s.nextHandlerReply.2.regs = s.regs ∧ s.nextHandlerReply.2.ram = s.ram := by
  unfold State.nextHandlerReply
  split <;> exact ⟨⟨rfl, rfl, rfl, rfl, rfl, rfl, rfl, rfl⟩, rfl, rfl⟩

/-- Everything an invocation that returns can do. -/
theorem State.invokeHandler_next {s t : State} {h : HandlerId} {n : Byte} (e : s.invokeHandler h n = .next t) :
    ControlKept s t ∧ (Memory.wf s.ram = true → Memory.wf t.ram = true) := by
  unfold State.invokeHandler at e
  split at e
  · rename_i calls u hu
    cases e
    have k := (s.emitPort (.syscall h n)).nextHandlerReply_keeps
    rw [hu] at k
    have p := u.performCalls_keeps calls
    exact ⟨((s.emitPort_kept _).toControlKept.trans k.1).trans p.1, fun w => p.2 (by rw [k.2.2]; exact w)⟩
  · cases e

end Sys2Proof.Machine
end

