-- ==== Sys2Proof/Laws/Step.lean ====
section
/-! SUPPORT. Once, everything one instruction and one step can do: the inversion lemmas later proofs cite. -/

namespace Sys2Proof.Machine

/-- Everything LOAD can do: fault entry with the state as it was, or a routed read and one register written. -/
theorem execLoad_cases (reg1 reg2 : RegIdx) (imm : Imm) (s : State) :
    (∃ f, s.memReadWord (coreAddress (s.effectiveAddress reg2 imm)) = .error f ∧
      execLoad reg1 reg2 imm s = .next (s.faultEntry f)) ∨
    (∃ v t, s.memReadWord (coreAddress (s.effectiveAddress reg2 imm)) = .ok (v, t) ∧ CoreKept s t ∧
      execLoad reg1 reg2 imm s = .next (t.setReg reg1 v)) := by
  unfold execLoad
  split
  · exact .inl ⟨_, ‹_›, rfl⟩
  · exact .inr ⟨_, _, ‹_›, State.memReadWord_kept ‹_›, rfl⟩

/-- Everything STORE can do: fault entry with the state as it was, or a routed write. -/
theorem execStore_cases (reg1 reg2 : RegIdx) (imm : Imm) (s : State) :
    (∃ f, s.memWriteWord (coreAddress (s.effectiveAddress reg2 imm)) (s.getReg reg1) = .error f ∧
      execStore reg1 reg2 imm s = .next (s.faultEntry f)) ∨
    (∃ t, s.memWriteWord (coreAddress (s.effectiveAddress reg2 imm)) (s.getReg reg1) = .ok t ∧
      execStore reg1 reg2 imm s = .next t) := by
  unfold execStore
  split
  · exact .inl ⟨_, ‹_›, rfl⟩
  · exact .inr ⟨_, ‹_›, rfl⟩

/-- Everything SYSCALL can do: a diagnostic, or an invocation of the connected handler. -/
theorem execSyscall_cases (s : State) :
    (s.handler = none ∧ execSyscall s = .next (s.emitTrace (.syscallUnhandled s.syscallNumber))) ∨
    (∃ h, s.handler = some h ∧ execSyscall s = s.invokeHandler h s.syscallNumber) := by
  unfold execSyscall
  split
  · exact .inl ⟨‹_›, rfl⟩
  · exact .inr ⟨_, ‹_›, rfl⟩

/-- The four ways a step ends in a next state. -/
theorem step_cases {s t : State} (h : step s = .next t) :
    tableWellFormed s.mmioTable = true ∧
    ((s.halted = true ∧ t = s) ∨
     (s.halted = false ∧ ∃ f, s.fetch = .error f ∧ t = s.faultEntry f) ∨
     (s.halted = false ∧ ∃ w u, s.fetch = .ok (w, u) ∧ CoreKept s u ∧
       ∃ v, executeWord w u = .next v ∧ t = if v.halted then v else v.advancePc)) := by
  unfold step instructionCycle at h
  split at h
  · refine ⟨‹_›, ?_⟩
    split at h
    · cases h; exact .inl ⟨‹_›, rfl⟩
    · rename_i hh
      simp only [Bool.not_eq_true] at hh
      split at h
      · cases h; exact .inr (.inl ⟨hh, _, ‹_›, rfl⟩)
      · rename_i w u hf
        refine .inr (.inr ⟨hh, w, u, hf, State.memReadWord_kept hf, ?_⟩)
        cases he : executeWord w u with
        | next v => rw [he] at h; cases h; exact ⟨v, rfl, rfl⟩
        | fault f => rw [he] at h; cases h
        | refused r => rw [he] at h; cases h
  · cases h

end Sys2Proof.Machine
end

