-- ==== Sys2Proof/Laws/PerInstr.lean ====
section
/-! SUPPORT. Facts about every instruction as syntax, one lemma per constructor. Family `CanonicalEncoding`: the encoder
emits only canonical fields (30_encoding.md R71, R76). -/

namespace Sys2Proof.Laws.CanonicalEncoding

def Statement (i : Instr) : Prop := (encodeFields i).canonical = true

theorem nop : Statement .nop := by unfold Statement; decide
theorem load (reg1 reg2 : RegIdx) (imm : Imm) : Statement (.load reg1 reg2 imm) := by
  simp [Statement, Fields.canonical, encodeFields]
theorem store (reg1 reg2 : RegIdx) (imm : Imm) : Statement (.store reg1 reg2 imm) := by
  simp [Statement, Fields.canonical, encodeFields]
theorem add (reg1 reg2 : RegIdx) : Statement (.add reg1 reg2) := by
  simp [Statement, Fields.canonical, encodeFields]
theorem sub (reg1 reg2 : RegIdx) : Statement (.sub reg1 reg2) := by
  simp [Statement, Fields.canonical, encodeFields]
theorem syscall : Statement .syscall := by unfold Statement; decide
theorem halt : Statement .halt := by unfold Statement; decide

end Sys2Proof.Laws.CanonicalEncoding
end

