-- ==== Sys2Proof/Tests/Slice0.lean ====
section
/-! SUPPORT. The model's own tests: ill-formed terms the checks refuse, words written out from the spec's encodings, the
vectors of 95_test_vectors.md (each test names its vector), and for every statement with hypotheses a witness that
meets them, each clause at a boundary. -/

namespace Sys2Proof.Tests
open Sys2Proof Sys2Proof.Machine

/-! ### Helpers -/

/-- The illustrative table of 92_eei_decisions.md (note on D7 and D8): GPU is device 0, FDC device 1. -/
def exampleTable : List Binding := Config.platformTable 0 1 0xF000#16 0xF400#16

/-- A state with some registers set and some words in RAM. -/
def make (regs : List (RegIdx × Word)) (words : List (Nat × Word)) (pc : Addr) : State :=
  let s := regs.foldl (fun s r => s.setReg r.1 r.2) { State.reset with pc := pc }
  words.foldl (fun s w => { s with ram := s.ram.writeWord w.1 w.2 }) s

/-- The step has a next state, of which the check holds. -/
def stepGives (s : State) (p : State → Bool) : Bool :=
  match step s with
  | .next t => p t
  | _ => false

/-- The execution has a next state, of which the check holds. -/
def execGives (i : Instr) (s : State) (p : State → Bool) : Bool :=
  match exec i s with
  | .next t => p t
  | _ => false

/-- The host operation has a next state, of which the check holds. -/
def hostGives (op : HostOp) (s : State) (p : State → Bool) : Bool :=
  match hostApply op s with
  | .next t => p t
  | _ => false

/-- The cells of a word, lowest address first. -/
def cells (s : State) (a : Nat) : List Byte := Memory.readBytes s.ram a 4

/-- A state with EXAMPLE_TABLE wired. -/
def wired (s : State) : State := { s with mmioTable := exampleTable }

/-! ### Well-formedness: an ill-formed term for each check -/

theorem test_canonical_refuses_nop_with_reg1 : Fields.canonical ⟨0x00#8, 1, 0, 0#16⟩ = false := by decide
theorem test_canonical_refuses_syscall_with_imm : Fields.canonical ⟨0x05#8, 0, 0, 0x0041#16⟩ = false := by decide
theorem test_canonical_refuses_add_with_imm : Fields.canonical ⟨0x03#8, 0, 1, 0xBEEF#16⟩ = false := by decide
theorem test_canonical_refuses_unlisted_opcode : Fields.canonical ⟨0x06#8, 0, 0, 0#16⟩ = false := by decide
theorem test_canonical_accepts_load : Fields.canonical ⟨0x01#8, 15, 15, 0xFFFF#16⟩ = true := by decide
theorem test_table_refuses_empty_range : tableWellFormed [⟨0xF000#16, 0x0000#16, 0⟩] = false := by decide
theorem test_table_refuses_past_the_top : tableWellFormed [⟨0xFFF0#16, 0x0020#16, 0⟩] = false := by decide
theorem test_table_refuses_misaligned_base : tableWellFormed [⟨0xF002#16, 0x0004#16, 0⟩] = false := by decide
theorem test_table_refuses_partial_word : tableWellFormed [⟨0xF000#16, 0x0006#16, 0⟩] = false := by decide
theorem test_table_refuses_overlap :
    tableWellFormed [⟨0xF000#16, 0x0400#16, 0⟩, ⟨0xF3FC#16, 0x0100#16, 1⟩] = false := by decide
theorem test_table_accepts_example : tableWellFormed exampleTable = true := by decide
theorem test_step_refuses_ill_formed_table :
    (match step { State.reset with mmioTable := [⟨0xF002#16, 0x0004#16, 0⟩] } with
      | .refused .illFormedMmioTable => true
      | _ => false) = true := by decide

/-! ### Decoding: words written out bit by bit from 30_encoding.md R65, R70 (vectors E1 to E15) -/

theorem test_decode_nop : (decodeWord 0b00000000_0000_0000_0000000000000000#32).toOption = some .nop := by decide
theorem test_decode_load :
    (decodeWord 0b00000001_0001_0010_0000000000010000#32).toOption = some (.load 1 2 0x0010#16) := by decide
theorem test_decode_store :
    (decodeWord 0b00000010_0011_0100_0000000000001000#32).toOption = some (.store 3 4 0x0008#16) := by decide
theorem test_decode_add : (decodeWord 0b00000011_1111_0000_0000000000000000#32).toOption = some (.add 15 0) := by decide
theorem test_decode_sub : (decodeWord 0b00000100_0001_0010_0000000000000000#32).toOption = some (.sub 1 2) := by decide
theorem test_decode_syscall : (decodeWord 0b00000101_0001_0010_0000000001000001#32).toOption = some .syscall := by decide
theorem test_decode_halt : (decodeWord 0b11111111_1111_1111_1111111111111111#32).toOption = some .halt := by decide
theorem test_decode_refuses_reserved_names :
    [0x06000000#32, 0x07123456#32, 0x08FFFFFF#32, 0x09000000#32, 0x80000000#32, 0xFE000000#32].all
      (fun w => (decodeWord w).toOption.isNone) = true := by decide
theorem test_decode_refuses_three_bytes : (decodeBytes [0x05#8, 0#8, 0#8]).toOption = none := by decide
theorem test_decode_table_word : decodeTableWord 32 0x02340008 = some (.store 3 4 0x0008#16) := by decide
theorem test_encode_bytes : encodeBytes (.load 1 2 0x0010#16) = [0x01#8, 0x12#8, 0x00#8, 0x10#8] := by decide

/-! ### Instructions -/

/-- Vector ST2: a NOP at the top of memory wraps `pc`. -/
theorem test_nop_wraps_pc : stepGives { State.reset with pc := 0xFFFC#16 } (fun t => t.pc = 0#16) = true := by decide

/-- Vectors LS3: the sum wraps modulo 65536 and the load is big-endian. -/
theorem test_load_wraps :
    stepGives (make [(2, 0xFFFFFFFC#32)] [(4, 0x0000002A#32), (0x100, 0x01120008#32)] 0x100#16)
      (fun t => t.getReg 1 = 0x2A#32 ∧ t.pc = 0x104#16) = true := by decide

/-- Vector LS6: a misaligned load changes no register and no pc. -/
theorem test_load_misaligned :
    stepGives (make [(2, 1#32), (1, 0x55555555#32)] [(0, 0x01120000#32)] 0#16)
      (fun t => t.getReg 1 = 0x55555555#32 ∧ t.pc = 0#16 ∧ t.lastFault = some .unalignedAccess) = true := by decide

/-- Vector LS8: source and base the same register, most significant byte lowest. -/
theorem test_store_same_register :
    stepGives (make [(1, 0x00001000#32)] [(0, 0x02110000#32)] 0#16)
      (fun t => cells t 0x1000 = [0x00#8, 0x00#8, 0x10#8, 0x00#8]) = true := by decide

/-- Vector LS10 and MM2: a store to a device range is four writes in order and leaves RAM alone. -/
theorem test_store_to_device :
    stepGives (wired (make [(1, 0xAABBCCDD#32), (2, 0xF000#32)] [(0, 0x02120000#32)] 0#16))
      (fun t => t.portLog = [.devWrite 0 0#16 0xAA#8, .devWrite 0 1#16 0xBB#8, .devWrite 0 2#16 0xCC#8,
        .devWrite 0 3#16 0xDD#8] ∧ cells t 0xF000 = [0#8, 0#8, 0#8, 0#8]) = true := by decide

/-- Vectors A1 and A8: the sum wraps, and a register added to itself is doubled. -/
theorem test_add_wraps :
    execGives (.add 0 1) (make [(0, 0xFFFFFFFF#32), (1, 1#32)] [] 0#16) (fun t => t.getReg 0 = 0#32) = true := by decide
theorem test_add_itself :
    execGives (.add 2 2) (make [(2, 0x40000001#32)] [] 0#16) (fun t => t.getReg 2 = 0x80000002#32) = true := by decide

/-- Vectors A4 and A2: operand order and borrow. -/
theorem test_sub_order :
    execGives (.sub 1 2) (make [(1, 5#32), (2, 7#32)] [] 0#16)
      (fun t => t.getReg 1 = 0xFFFFFFFE#32 ∧ t.getReg 2 = 7#32) = true := by decide

/-- Vector SY4: no handler, no change but pc. -/
theorem test_syscall_without_handler :
    stepGives (make [(0, 0x41#32)] [(0, 0x05000000#32)] 0#16)
      (fun t => t.pc = 4#16 ∧ t.getReg 0 = 0x41#32 ∧ t.lastFault = none ∧ t.portLog = []) = true := by decide

/-- Vector SY4b: the handler's own changes are there afterwards. -/
theorem test_syscall_handler_effects :
    stepGives { make [(0, 7#32)] [(0, 0x05000000#32)] 0#16 with
        handler := some 9, handlerReplies := [.returns [.set 0 0#32, .set 5 0x99#32, .busWriteByte 0x200 1#8]] }
      (fun t => t.getReg 0 = 0#32 ∧ t.getReg 5 = 0x99#32 ∧ Memory.read t.ram 0x200 = 1#8 ∧ t.pc = 4#16 ∧
        t.portLog = [.syscall 9 0x07#8]) = true := by decide

/-- Vectors SY5, SY6: HALT stops with pc at the HALT, and a further step changes nothing. -/
theorem test_halt_is_terminal :
    stepGives (make [(1, 0x77#32)] [(8, 0xFFFFFFFF#32)] 8#16)
      (fun t => t.halted ∧ t.pc = 8#16 ∧ t.lastFault = none ∧ stepGives t (fun u => u = t)) = true := by decide

/-- Vector I1: an unknown opcode halts with pc where it was. -/
theorem test_unknown_opcode :
    stepGives (make [(3, 0x33333333#32)] [(0x40, 0x99000000#32)] 0x40#16)
      (fun t => t.halted ∧ t.pc = 0x40#16 ∧ t.lastFault = some .unknownOpcode ∧ t.getReg 3 = 0x33333333#32) = true := by
  decide

/-- Vector MM3: four answers in ascending order, composed big-endian. -/
theorem test_device_read_order :
    execGives (.load 1 2 0x0008#16)
      { wired (make [(2, 0xF000#32)] [] 0#16) with deviceReplies := [0x12#8, 0x34#8, 0x56#8, 0x78#8] }
      (fun t => t.getReg 1 = 0x12345678#32 ∧ t.portLog = [.devRead 0 8#16 0x12#8, .devRead 0 9#16 0x34#8,
        .devRead 0 10#16 0x56#8, .devRead 0 11#16 0x78#8]) = true := by decide

/-- Vector RS5: a load that does not fit writes nothing and halts the core. -/
theorem test_load_program_too_long :
    hostGives (.loadProgram [1#8, 2#8, 3#8, 4#8, 5#8, 6#8, 7#8, 8#8, 9#8] 0xFFF8#16) State.reset
      (fun t => t.ram = [] ∧ t.pc = 0#16 ∧ t.halted ∧ t.lastFault = some .insufficientSpace) = true := by decide

/-- Vector ST5: `run(2)` of program P3 leaves the core stopped at the HALT. -/
theorem test_run_budget :
    (match (make [] [(0, 0x0100000C#32), (4, 0x05000000#32), (8, 0xFF000000#32), (12, 0x41#32)] 0#16).run 2 with
      | .next (n, t) => n == 2 && t.pc == 8#16 && t.getReg 0 == 0x41#32 && t.runState == .stopped
      | _ => false) = true := by decide

/-- The placing of an instruction right after reset. -/
theorem test_placed_word_runs :
    stepGives (State.reset.withFetchWord 32 0xFF000000) (fun t => t.halted ∧ t.pc = 0#16) = true := by decide

/-! ### Witnesses: the hypotheses of each statement are met, each clause at a boundary -/

/-- The core at `pc` 0 about to execute the word. -/
theorem fetches_of_make (w : Word) :
    Fetches (make [] [(0, w)] 0#16) w (make [] [(0, w)] 0#16) := by
  refine ⟨rfl, rfl, ?_⟩
  have h : ∀ m : Memory, Memory.wf m = true → Memory.readWord (m.writeWord 0 w) 0 = w := fun m hm => by
    simp [Memory.readWord, Memory.read_writeWord hm (show 0 + 3 < Config.memSize by decide)]
  exact congrArg (fun v => Except.ok (v, make [] [(0, w)] 0#16)) (h [] rfl)

theorem witness_OpcodeAloneSelectsTheInstruction :
    (0x00000000#32).toNat = 0x00 * 2 ^ 24 + 0 * 2 ^ 20 + 0 * 2 ^ 16 + 0 ∧
    (0x01FFFFFF#32).toNat = 0x01 * 2 ^ 24 + 15 * 2 ^ 20 + 15 * 2 ^ 16 + 65535 ∧
    (0x02340008#32).toNat = 0x02 * 2 ^ 24 + 3 * 2 ^ 20 + 4 * 2 ^ 16 + 8 ∧
    (0x0301BEEF#32).toNat = 0x03 * 2 ^ 24 + 0 * 2 ^ 20 + 1 * 2 ^ 16 + 0xBEEF ∧
    (0x04330000#32).toNat = 0x04 * 2 ^ 24 + 3 * 2 ^ 20 + 3 * 2 ^ 16 + 0 ∧
    (0x05120041#32).toNat = 0x05 * 2 ^ 24 + 1 * 2 ^ 20 + 2 * 2 ^ 16 + 0x41 ∧
    (0xFFFFFFFF#32).toNat = 0xFF * 2 ^ 24 + 15 * 2 ^ 20 + 15 * 2 ^ 16 + 65535 := by decide

theorem witness_UnlistedOpcodeFaultsAndChangesNothing :
    (0x06 ≤ (0x06000000#32).toNat / 2 ^ 24 ∧ (0xFEFFFFFF#32).toNat / 2 ^ 24 ≤ 0xFE) ∧
    (∃ s u, Fetches s 0x06000000#32 u) ∧ (∃ s u, Fetches s 0xFEFFFFFF#32 u) :=
  ⟨by decide, ⟨_, _, fetches_of_make _⟩, ⟨_, _, fetches_of_make _⟩⟩

theorem witness_NopCompletes : (0x00FFFFFF#32).toNat / 2 ^ 24 = 0x00 ∧ ∃ s u, Fetches s 0x00FFFFFF#32 u :=
  ⟨by decide, _, _, fetches_of_make _⟩

theorem witness_HaltCompletes : (0xFF123456#32).toNat / 2 ^ 24 = 0xFF ∧ ∃ s u, Fetches s 0xFF123456#32 u :=
  ⟨by decide, _, _, fetches_of_make _⟩

theorem witness_StepRunsTheDecodedInstruction :
    ∃ s u w i, Fetches s w u ∧ decodeWord w = .ok i ∧
      ∃ t, exec i (u.emitTrace (.decoded s.pc w (fieldsOf w))) = .next t :=
  ⟨_, _, 0x03120000#32, .add 1 2, fetches_of_make _, rfl, _, rfl⟩

/-- The clause of a fault: a SYSCALL whose handler never returns. -/
theorem witness_StepRunsTheDecodedInstruction_fault :
    ∃ s u w, Fetches s w u ∧ decodeWord w = .ok .syscall ∧
      exec .syscall (u.emitTrace (.decoded s.pc w (fieldsOf w))) = .fault .handlerNeverReturns :=
  ⟨{ make [] [(0, 0x05000000#32)] 0#16 with handler := some 1, handlerReplies := [.neverReturns] },
    { make [] [(0, 0x05000000#32)] 0#16 with handler := some 1, handlerReplies := [.neverReturns] },
    0x05000000#32, ⟨rfl, rfl, rfl⟩, rfl, rfl⟩

/-- Bounds and alignment clauses of the bus statements, and a memory in canonical form: the first and the last address
in range, the first below and above, the misaligned ones next to them. -/
theorem witness_Bus_clauses :
    Memory.wf ((Memory.writeWord [] 0xFFFC 0xDEADBEEF#32)) = true ∧
    ((-1 : Int) < 0 ∨ (0x10000 : Int) ≤ -1) ∧ ((0x10000 : Int) < 0 ∨ (0x10000 : Int) ≤ 0x10000) ∧
    ((0 : Int) ≤ 0 ∧ (0 : Int) % 4 = 0) ∧ ((0xFFFC : Int) < 0x10000 ∧ (0xFFFC : Int) % 4 = 0) ∧
    ((0 : Int) ≤ 1 ∧ (1 : Int) % 4 ≠ 0) ∧ ((0xFFFF : Int) < 0x10000 ∧ (0xFFFF : Int) % 4 ≠ 0) := by decide

theorem witness_BulkLoadCopiesAllOrNothing :
    Memory.wf [] = true ∧ ((0xFFF8 : Int) + [1#8, 2#8, 3#8, 4#8, 5#8, 6#8, 7#8, 8#8].length ≤ 0x10000) ∧
    (0x10000 < (0xFFF8 : Int) + [1#8, 2#8, 3#8, 4#8, 5#8, 6#8, 7#8, 8#8, 9#8].length) ∧
    ((0x10000 : Int) < 0 ∨ (0x10000 : Int) ≤ 0x10000) := by decide

theorem witness_CanonicalMemoriesThatReadAlikeAreEqual :
    ∃ m n : Memory, Memory.wf m = true ∧ Memory.wf n = true ∧ ∀ a, Memory.read m a = Memory.read n a :=
  ⟨[(4, 1#8)], Memory.write (Memory.write [(4, 1#8)] 9 2#8) 9 0#8, by decide, by decide, fun _ => rfl⟩

theorem witness_Router_clauses :
    tableWellFormed exampleTable = true ∧
    lookup exampleTable 0xF000 = some ⟨0xF000#16, 0x0400#16, 0⟩ ∧
    lookup exampleTable 0xF3FC = some ⟨0xF000#16, 0x0400#16, 0⟩ ∧
    lookup exampleTable 0xF400 = some ⟨0xF400#16, 0x0100#16, 1⟩ ∧
    lookup exampleTable 0xEFFF = none ∧ lookup exampleTable 0xF500 = none ∧ 0xF3FC % 4 = 0 := by decide

theorem witness_LoadFromRamCompletes :
    let s := make [(2, 0x0001FFF0#32)] [] 0#16
    (s.effectiveAddress 2 0x000C#16).toNat = 0xFFFC ∧ 0xFFFC % 4 = 0 ∧ lookup s.mmioTable 0xFFFC = none := by decide

theorem witness_LoadFromDeviceCompletes :
    let s := { wired (make [(2, 0xF000#32)] [] 0#16) with deviceReplies := [1#8, 2#8, 3#8, 4#8] }
    (s.effectiveAddress 2 0x03FC#16).toNat = 0xF3FC ∧ 0xF3FC % 4 = 0 ∧
      lookup s.mmioTable 0xF3FC = some ⟨0xF000#16, 0x0400#16, 0⟩ := by decide

theorem witness_StoreToRamCompletes :
    let s := make [(1, 0x11223344#32)] [(0xFFFC, 0xDEADBEEF#32)] 0#16
    Memory.wf s.ram = true ∧ (s.effectiveAddress 2 0xFFFC#16).toNat = 0xFFFC ∧ lookup s.mmioTable 0xFFFC = none := by
  decide

theorem witness_StoreToDeviceCompletes :
    let s := wired (make [(1, 0x11223344#32)] [] 0#16)
    (s.effectiveAddress 2 0xF4FC#16).toNat = 0xF4FC ∧ 0xF4FC % 4 = 0 ∧
      lookup s.mmioTable 0xF4FC = some ⟨0xF400#16, 0x0100#16, 1⟩ := by decide

theorem witness_MisalignedLoadAndStoreFault :
    ((make [] [] 0#16).effectiveAddress 0 0xFFFF#16).toNat % 4 ≠ 0 ∧
    ((wired (make [] [] 0#16)).effectiveAddress 0 0xF001#16).toNat % 4 ≠ 0 := by decide

theorem witness_StoredWordIsWhatTheNextFetchGets :
    ∃ (s t u : State) (reg1 reg2 : RegIdx) (imm : Imm), Memory.wf s.ram = true ∧ (s.effectiveAddress reg2 imm).toNat % 4 = 0 ∧
      lookup s.mmioTable (s.effectiveAddress reg2 imm).toNat = none ∧ exec (.store reg1 reg2 imm) s = .next t ∧
      u.ram = t.ram ∧ u.mmioTable = t.mmioTable ∧ u.pc = s.effectiveAddress reg2 imm :=
  ⟨make [(1, 0xFF000000#32)] [] 0#16, { make [(1, 0xFF000000#32)] [] 0#16 with ram := [(0xC, 0xFF#8)] },
    { make [(1, 0xFF000000#32)] [] 0#16 with ram := [(0xC, 0xFF#8)], pc := 0xC#16 }, 1, 0, 0xC#16,
    by decide, by decide, by decide, by rfl, rfl, rfl, by decide⟩

theorem witness_SyscallWithoutHandlerCompletes : State.reset.handler = none := rfl

theorem witness_SyscallInvokesTheHandlerOnce :
    let s := { State.reset with handler := some 1, handlerReplies := [.returns [.memWriteByte 5 1#8]] }
    s.handler = some 1 ∧ s.nextHandlerReply.1 = .returns [.memWriteByte 5 1#8] := by decide

theorem witness_SyscallStopsOnlyWhenTheHandlerNeverReturns :
    let s := { State.reset with handler := some 1, handlerReplies := [.neverReturns] }
    s.handler ≠ none ∧ s.nextHandlerReply.1 = .neverReturns := by decide

theorem witness_SyscallNumberIsTheLowByteOfRegisterZero :
    ((make [(0, 0x12345641#32)] [] 0#16).getReg 0).toNat % 256 = ((make [(0, 0x41#32)] [] 0#16).getReg 0).toNat % 256 := by
  decide

/-- The three clauses of the fetch: at the top of memory, at the last word of a device range, and misaligned. -/
theorem witness_FetchReadsTheWordOrFaults :
    ((0xFFFC#16).toNat % 4 = 0 ∧ lookup State.reset.mmioTable (0xFFFC#16).toNat = none) ∧
    ((0xF3FC#16).toNat % 4 = 0 ∧ lookup exampleTable (0xF3FC#16).toNat = some ⟨0xF000#16, 0x0400#16, 0⟩) ∧
    ((0xFFFF#16).toNat % 4 ≠ 0 ∧ tableWellFormed State.reset.mmioTable = true ∧ State.reset.halted = false) := by decide

/-- A fetch from a device range: the four answers, most significant first, are the word that runs. -/
theorem test_fetch_from_device :
    stepGives { wired State.reset with pc := 0xF000#16, deviceReplies := [0xFF#8, 0x12#8, 0x34#8, 0x56#8] }
      (fun t => t.halted ∧ t.pc = 0xF000#16 ∧ t.portLog = [.devRead 0 0#16 0xFF#8, .devRead 0 1#16 0x12#8,
        .devRead 0 2#16 0x34#8, .devRead 0 3#16 0x56#8]) = true := by decide

/-- A step of a running core, from the top of memory, that goes on. -/
theorem witness_StepAdvancesPcByFourOrHalts :
    ∃ s t, s.halted = false ∧ step s = .next t ∧ t.halted = false :=
  ⟨{ State.reset with pc := 0xFFFC#16 }, { State.reset with pc := 0x0000#16 }, rfl, rfl, rfl⟩

/-- A step that stops by a fault: the hypotheses of the precision and of the two-faults statements. -/
theorem witness_FaultsArePrecise :
    ∃ s t, s.halted = false ∧ s.lastFault = none ∧ step s = .next t ∧ t.lastFault = some .unalignedAccess ∧
      t.halted = true :=
  ⟨{ State.reset with pc := 0x0002#16 }, State.faultEntry { State.reset with pc := 0x0002#16 } .unalignedAccess,
    rfl, rfl, rfl, rfl, rfl⟩

theorem witness_StepTakesTwoFaultsOnly :
    stepGives (make [] [(0, 0xFE000000#32)] 0#16) (fun t => t.lastFault = some .unknownOpcode) = true ∧
    stepGives (make [] [(0, 0x01000001#32)] 0#16) (fun t => t.lastFault = some .unalignedAccess) = true := by decide

/-- An aligned running state whose step goes on. -/
theorem witness_StepKeepsPcAligned : ∃ s t, PcAligned s ∧ step s = .next t ∧ t.halted = false :=
  ⟨State.reset, { State.reset with pc := 4#16 }, rfl, rfl, rfl⟩

/-- A halted core, and a host operation on it that has a next state. -/
theorem witness_HaltedUntilReset :
    ∃ s t, tableWellFormed s.mmioTable = true ∧ s.halted = true ∧ hostApply (.setPc 0) s = .next t ∧
      HostOp.setPc 0 ≠ .reset :=
  ⟨{ State.reset with halted := true }, { State.reset with halted := true }, rfl, rfl, rfl, by decide⟩

theorem witness_StepAlwaysAnswers : tableWellFormed exampleTable = true := by decide

/-- A run that stops before its budget. -/
theorem witness_RunIsAtMostMaxStepsSteps :
    (match (make [] [(0, 0xFF000000#32)] 0#16).run 10 with
      | .next (n, t) => n == 1 && t.halted && !t.running
      | _ => false) = true := by decide

/-- A state with a device and a program that has the invariant, and the step it takes. -/
theorem witness_StepKeepsTheInvariant :
    ∃ s, CoreInv s ∧ stepGives s (fun t => t.pc = 4#16) = true ∧ s.ram ≠ [] ∧ s.mmioTable ≠ [] :=
  let s := wired { State.reset with ram := [(7, 0x03#8)] }
  ⟨s, ⟨by decide, by decide, by decide, by decide⟩, by decide, by decide, by decide⟩

theorem witness_HostOperationsKeepTheInvariant :
    ∃ s t, CoreInv s ∧ hostApply (.loadProgram [1#8] 0xFFFF#16) s = .next t ∧ t.ram = [(0xFFFF, 1#8)] :=
  ⟨State.reset, { State.reset with ram := [(0xFFFF, 1#8)], pc := 0xFFFF#16 },
    ⟨by decide, by decide, by decide, by decide⟩, rfl, rfl⟩

/-- A running core at a HALT, and one at a misaligned `pc`: each clause of the ends of a step and of a run. -/
theorem witness_EndsAreHaltsOrSingleFaults :
    (∃ s t, s.halted = false ∧ s.lastFault = none ∧ step s = .next t ∧ EndedCleanly t ∧ AtHalt s) ∧
    (∃ s t, s.halted = false ∧ s.lastFault = none ∧ step s = .next t ∧ EndedByFault t .unalignedAccess ∧
      FaultsWith s .unalignedAccess) ∧
    (match (make [] [(4, 0xFF000000#32)] 0#16).run 2 with
      | .next (n, t) => n == 2 && t.halted && t.lastFault == none
      | _ => false) = true ∧
    (match (make [] [(4, 0x99000000#32)] 0#16).run 2 with
      | .next (n, t) => n == 2 && t.halted && t.lastFault == some .unknownOpcode
      | _ => false) = true ∧
    (match State.reset.run 2 with
      | .next (n, t) => n == 2 && !t.halted && t.lastFault == none
      | _ => false) = true :=
  ⟨⟨{ State.reset with ram := [(0, 0xFF#8)] }, _, rfl, rfl, rfl, ⟨rfl, rfl⟩, 0xFF000000#32, _, rfl, rfl⟩,
    ⟨{ State.reset with pc := 2#16 }, _, rfl, rfl, rfl, ⟨rfl, rfl⟩, .inl ⟨rfl, by unfold PcAligned; decide⟩⟩,
    by decide, by decide, by decide⟩

theorem witness_InvariantHoldsAtReset : tableWellFormed exampleTable = true ∧ tableWellFormed [] = true := by decide

theorem witness_ReachableStatesMeetTheInvariant : ∃ s, Reachable s ∧ s.pc = 4#16 ∧ s.mmioTable = exampleTable :=
  ⟨{ wired State.reset with pc := 4#16 },
    .hosted (wired State.reset) _ (.setPc 4) (.created exampleTable (by decide)) (by rfl), rfl, rfl⟩

/-- Each value of the view, and a table on which the host operations answer. -/
theorem witness_InspectionViewShowsTheState :
    ({ State.reset with halted := true }.getState.runState = .halted) ∧
    ({ State.reset with running := true }.getState.runState = .running) ∧
    State.reset.getState.runState = .stopped ∧ tableWellFormed State.reset.mmioTable = true := by decide

theorem witness_BindingTableNeverChanges :
    ∃ s t u v, exec (.add 0 0) s = .next t ∧ step s = .next u ∧ hostApply .reset s = .next v ∧
      s.mmioTable = exampleTable :=
  ⟨wired State.reset, _, _, _, rfl, rfl, rfl, rfl⟩

theorem witness_HandlerSlotChangesOnlyByItsPort :
    ∃ s t, hostApply .reset s = .next t ∧ s.handler = some 3 ∧ ∀ h, HostOp.reset ≠ .setSyscallHandler h :=
  ⟨{ State.reset with handler := some 3 }, _, rfl, rfl, fun _ h => nomatch h⟩

theorem witness_PcChangesOnlyWhereTheRulesSay :
    ∃ s t u, exec .syscall s = .next t ∧ hostApply (.execute 0x03000000#32) s = .next u ∧ s.pc = 8#16 :=
  ⟨{ State.reset with pc := 8#16 }, _, _, rfl, rfl, rfl⟩

theorem witness_TracePortDoesNotInfluenceTheCore :
    ∃ s s' t, s.eraseTrace = s'.eraseTrace ∧ s ≠ s' ∧ step s = .next t :=
  ⟨State.reset, { State.reset with traceAttached := true }, _, rfl, by decide, rfl⟩

theorem witness_StepDoesNotReadRunning : ∃ t, step { State.reset with running := true } = .next t := ⟨_, rfl⟩

/-- Two states that differ in one shadowed cell, a handler connected, about to run a NOP. -/
theorem witness_ShadowedRamIsUnobservable :
    ∃ s s' : State, Memory.wf s.ram = true ∧ Memory.wf s'.ram = true ∧ AgreeButShadowedRam s s' ∧ s ≠ s' ∧
      s.handler = some 1 ∧ (∀ (w : Word) (u : State), s.fetch = .ok (w, u) → decodeWord w ≠ .ok .syscall) ∧
      ∃ t, step s = .next t := by
  refine ⟨{ wired State.reset with handler := some 1 },
    { wired State.reset with handler := some 1, ram := [(0xF005, 0x99#8)] }, by decide, by decide,
    ⟨rfl, fun a h => ?_⟩, by decide, rfl, fun w u h => ?_, _, rfl⟩
  · have hne : a ≠ 0xF005 := fun e => by subst e; exact absurd h (by decide)
    show Memory.unlisted = if a < 0xF005 then Memory.unlisted else if a = 0xF005 then 0x99#8 else Memory.unlisted
    simp [hne]
  · have hw : w = 0x00000000#32 := (congrArg Prod.fst (Except.ok.inj h)).symm
    subst hw
    decide

/-- The same with no handler connected, about to run a SYSCALL. -/
theorem witness_ShadowedRamIsUnobservable_syscall :
    ∃ s : State, s.handler = none ∧ ∃ u, s.fetch = .ok (0x05000000#32, u) ∧ s.mmioTable = exampleTable :=
  ⟨wired { State.reset with ram := [(0, 0x05#8)] }, rfl, _, rfl, rfl⟩

theorem witness_LoadProgramPlacesTheBytes :
    CoreInv State.reset ∧ (0xFFFC#16).toNat + [1#8, 2#8, 3#8, 4#8].length ≤ 0x10000 ∧
      0x10000 < (0xFFFD#16).toNat + [1#8, 2#8, 3#8, 4#8].length :=
  ⟨⟨by decide, by decide, by decide, by decide⟩, by decide, by decide⟩

theorem witness_DebugPortReachesEachRegister :
    ¬ ((0 : Int) ≤ -1 ∧ (-1 : Int) ≤ 15) ∧ ¬ ((0 : Int) ≤ 16 ∧ (16 : Int) ≤ 15) ∧
      (15 : Int) = ((15 : RegIdx).val : Int) ∧ (0 : Int) = ((0 : RegIdx).val : Int) := by decide

theorem witness_DebugPortSetsPc :
    ¬ ((0 : Int) ≤ 0x10000 ∧ (0x10000 : Int) ≤ 0xFFFF) ∧ ¬ ((0 : Int) ≤ -1 ∧ (-1 : Int) ≤ 0xFFFF) ∧
      ((0 : Int) ≤ 0xFFFF ∧ (0xFFFF : Int) ≤ 0xFFFF) := by decide

theorem witness_DumpMemoryReadsTheBackingStore :
    (0x10000 ≤ 0xFFFE ∨ 0x10000 < 0xFFFE + 3) ∧ (0xFFFE < 0x10000 ∧ 0xFFFE + 2 ≤ 0x10000) ∧
      (0x10000 ≤ 0x10000 ∨ 0x10000 < 0x10000 + 0) := by decide

theorem witness_HostOperations_on_any_table :
    tableWellFormed (wired { State.reset with ram := [(7, 1#8)], halted := true }).mmioTable = true := by decide

theorem witness_DirectCallFaultsChangeNothing :
    (State.reset.directCall (.get 16) = .error .invalidRegisterIndex) ∧
      (State.reset.setPc 0x10000 = .error .invalidAddress) := ⟨rfl, rfl⟩

theorem witness_RefusalsAreExactlyTheTwoOfTheSpec :
    ∃ s t : State, tableWellFormed s.mmioTable = false ∧ t.halted = true ∧ tableWellFormed t.mmioTable = true :=
  ⟨{ State.reset with mmioTable := [⟨0#16, 0#16, 0⟩] }, { State.reset with halted := true }, by decide, rfl, rfl⟩

/-- A misaligned, halted state inside a device range. -/
theorem witness_PlacedWordIsFetchedNext :
    let s := wired { State.reset with pc := 0xF3FF#16, halted := true }
    tableWellFormed s.mmioTable = true ∧ Memory.wf s.ram = true := by decide

end Sys2Proof.Tests
end

/-! The invariant `CoreInv`: what each operation does to it, then steps, host operations and reachable states. -/

namespace Sys2Proof.Machine

/-! ### The invariant under the state's operations -/

/-- The invariant reads the memory's form, the two flags, the retained fault and the wiring, and nothing else. -/
theorem CoreInv.of_fields_eq {s t : State} (h : CoreInv s) (halted : t.halted = s.halted)
    (running : t.running = s.running) (lastFault : t.lastFault = s.lastFault) (mmioTable : t.mmioTable = s.mmioTable)
    (ram : Memory.wf s.ram = true → Memory.wf t.ram = true) : CoreInv t where
  ram_canonical := ram h.ram_canonical
  fault_halts := by rw [halted, lastFault]; exact h.fault_halts
  flags_exclusive := by rw [halted, running]; exact h.flags_exclusive
  table_wellFormed := by rw [mmioTable]; exact h.table_wellFormed

theorem CoreInv.of_controlKept {s t : State} (h : CoreInv s) (k : ControlKept s t)
    (ram : Memory.wf s.ram = true → Memory.wf t.ram = true) : CoreInv t :=
  h.of_fields_eq k.halted k.running k.lastFault k.mmioTable ram

theorem CoreInv.of_coreKept {s t : State} (h : CoreInv s) (k : CoreKept s t) : CoreInv t :=
  h.of_controlKept k.toControlKept (by rw [k.ram]; exact id)

/-- Fault entry sets `halted` with the fault it retains and clears `running` (60_exceptions.md R122). -/
theorem CoreInv.faultEntry {s : State} (h : CoreInv s) (f : FaultKind) : CoreInv (s.faultEntry f) :=
  ⟨h.ram_canonical, fun _ => rfl, by simp, h.table_wellFormed⟩

theorem CoreInv.setHalted {s : State} (h : CoreInv s) : CoreInv s.setHalted :=
  ⟨h.ram_canonical, fun _ => rfl, by simp, h.table_wellFormed⟩

theorem CoreInv.setReg {s : State} (h : CoreInv s) (i : RegIdx) (v : Word) : CoreInv (s.setReg i v) :=
  h.of_fields_eq rfl rfl rfl rfl id

theorem CoreInv.emitTrace {s : State} (h : CoreInv s) (e : TraceEvent) : CoreInv (s.emitTrace e) :=
  h.of_fields_eq (s.emitTrace_halted e) (s.emitTrace_running e) (s.emitTrace_lastFault e) (s.emitTrace_mmioTable e)
    (by rw [State.emitTrace_ram]; exact id)

theorem CoreInv.advancePc {s : State} (h : CoreInv s) : CoreInv s.advancePc :=
  h.of_fields_eq rfl rfl rfl rfl id

theorem CoreInv.afterCall {s : State} (h : CoreInv s) (c : DirectCall) : CoreInv (s.afterCall c) :=
  h.of_controlKept (s.afterCall_keeps c).1 (s.afterCall_keeps c).2

theorem CoreInv.hostReset {s : State} (h : CoreInv s) : CoreInv s.hostReset :=
  ⟨h.ram_canonical, by simp, by simp, h.table_wellFormed⟩

/-- Setting `running` keeps the invariant on a core that is not halted: a fault is retained by a halted one only. -/
theorem CoreInv.setRunning {s : State} (h : CoreInv s) (hh : s.halted = false) : CoreInv { s with running := true } :=
  ⟨h.ram_canonical, h.fault_halts, by simp [hh], h.table_wellFormed⟩

theorem CoreInv.clearRunning {s : State} (h : CoreInv s) : CoreInv { s with running := false } :=
  ⟨h.ram_canonical, h.fault_halts, by simp, h.table_wellFormed⟩

/-- A bulk load is the direct call `busLoadBulk`, so what that call keeps it keeps. -/
theorem busLoadBulk_wf {m m' : Memory} {addr : Int} {bytes : List Byte} (h : busLoadBulk m addr bytes = .ok m')
    (w : Memory.wf m = true) : Memory.wf m' = true := by
  let s : State := { State.reset with ram := m }
  have hcall : s.directCall (.busLoadBulk addr bytes) = .ok (.done, { s with ram := m' }) := by
    simp only [State.directCall, s, h]
    rfl
  exact (State.directCall_keeps hcall).2.2 w

/-! ### The invariant under an instruction and a step -/

/-- Every instruction keeps the invariant (60_exceptions.md R125; for SYSCALL decision D10). -/
theorem exec_keepsCoreInv {i : Instr} {s t : State} (hs : CoreInv s) (h : exec i s = .next t) : CoreInv t := by
  cases i with
  | nop => cases h; exact hs
  | load reg1 reg2 imm =>
    rcases execLoad_cases reg1 reg2 imm s with ⟨f, -, e⟩ | ⟨v, u, -, hu, e⟩
    · cases e.symm.trans h; exact hs.faultEntry f
    · cases e.symm.trans h; exact (hs.of_coreKept hu).setReg reg1 v
  | store reg1 reg2 imm =>
    rcases execStore_cases reg1 reg2 imm s with ⟨f, -, e⟩ | ⟨u, hw, e⟩
    · cases e.symm.trans h; exact hs.faultEntry f
    · cases e.symm.trans h
      obtain ⟨hctl, -, hwf⟩ := State.memWriteWord_keeps hw
      exact hs.of_controlKept hctl hwf
  | add reg1 reg2 => cases h; exact hs.setReg _ _
  | sub reg1 reg2 => cases h; exact hs.setReg _ _
  | syscall =>
    rcases execSyscall_cases s with ⟨-, e⟩ | ⟨handler, -, e⟩
    · cases e.symm.trans h; exact hs.emitTrace _
    · obtain ⟨hctl, hwf⟩ := State.invokeHandler_next (e.symm.trans h)
      exact hs.of_controlKept hctl hwf
  | halt => cases h; exact hs.setHalted

theorem executeWord_keepsCoreInv {w : Word} {s t : State} (hs : CoreInv s) (h : executeWord w s = .next t) :
    CoreInv t := by
  unfold executeWord at h
  split at h
  · exact exec_keepsCoreInv (hs.emitTrace _) h
  · cases h; exact (hs.emitTrace _).faultEntry _

theorem step_keepsCoreInv {s t : State} (hs : CoreInv s) (h : step s = .next t) : CoreInv t := by
  rcases (step_cases h).2 with ⟨-, rfl⟩ | ⟨-, f, -, rfl⟩ | ⟨-, w, u, -, hu, v, hv, rfl⟩
  · exact hs
  · exact hs.faultEntry f
  · have hinv : CoreInv v := executeWord_keepsCoreInv (hs.of_coreKept hu) hv
    split
    · exact hinv
    · exact hinv.advancePc

/-! ### The loop of `run` -/

/-- The loop makes no step on a halted core (40_execution_cycle.md R82). -/
theorem runLoop_of_halted {budget n : Nat} {s : State} (h : s.halted = true) :
    runLoop budget n s = .next (n, s) := by
  cases budget with
  | zero => rfl
  | succ budget => simp [runLoop, h]

/-- What every step of a core that is not halted keeps, the loop keeps. -/
theorem runLoop_induction {P : State → Prop}
    (hstep : ∀ s t : State, s.halted = false → P s → step s = .next t → P t)
    {budget n m : Nat} {s t : State} (hs : P s) (h : runLoop budget n s = .next (m, t)) : P t := by
  induction budget generalizing n s with
  | zero => cases h; exact hs
  | succ budget ih =>
    unfold runLoop at h
    split at h
    · cases h; exact hs
    · rename_i hh
      split at h
      · rename_i u hu
        have hP : P u := hstep s u (Bool.not_eq_true _ ▸ hh) hs hu
        split at h
        · exact ih hP h
        · cases h; exact hP
      · cases h
      · cases h

/-- The loop under the `running` flag that `run` sets: a halted core it hands back, and any other has the invariant
with the flag set, so that the flag cleared again leaves the invariant in both. -/
theorem runLoop_keepsCoreInv {budget n m : Nat} {s t : State} (hs : CoreInv s)
    (h : runLoop budget n { s with running := true } = .next (m, t)) : CoreInv { t with running := false } := by
  cases hh : s.halted with
  | true =>
    cases (runLoop_of_halted (s := { s with running := true }) hh).symm.trans h
    exact hs.clearRunning
  | false =>
    have hinv : CoreInv t := runLoop_induction (fun _ _ _ => step_keepsCoreInv) (hs.setRunning hh) h
    exact hinv.clearRunning

/-! ### Everything a host operation can do -/

/-- The ways a host operation ends in a next state, one constructor per way. -/
inductive HostMove (s : State) : HostOp → State → Prop where
  | reset : HostMove s .reset s.hostReset
  | step {t : State} (h : Machine.step s = .next t) : HostMove s .step t
  | run {maxSteps n : Nat} {t : State} (h : runLoop maxSteps 0 { s with running := true } = .next (n, t)) :
      HostMove s (.run maxSteps) { t with running := false }
  | execute {w : Word} {t : State} (hh : s.halted = false) (h : executeWord w s = .next t) : HostMove s (.execute w) t
  | loaded {bytes : List Byte} {start : Addr} {m : Memory} (h : busLoadBulk s.ram (coreAddress start) bytes = .ok m) :
      HostMove s (.loadProgram bytes start) { s with ram := m, pc := start }
  | notLoaded {bytes : List Byte} {start : Addr} {f : FaultKind}
      (h : busLoadBulk s.ram (coreAddress start) bytes = .error f) :
      HostMove s (.loadProgram bytes start) (s.faultEntry f)
  | clearMemory : HostMove s .clearMemory s.clearMemory
  | call (c : DirectCall) : HostMove s (.call c) (s.afterCall c)
  | getPc : HostMove s .getPc s
  | pcSet {address : Int} (lo : 0 ≤ address) (hi : address < Config.memSize) :
      HostMove s (.setPc address) { s with pc := BitVec.ofNat 16 address.toNat }
  | pcRejected {address : Int} (h : address < 0 ∨ (Config.memSize : Int) ≤ address) : HostMove s (.setPc address) s
  | getState : HostMove s .getState s
  | setSyscallHandler (h : Option HandlerId) : HostMove s (.setSyscallHandler h) (s.setSyscallHandler h)
  | attachTrace (on : Bool) : HostMove s (.attachTrace on) (s.attachTrace on)

theorem State.run_next {s t : State} {maxSteps n : Nat} (h : s.run maxSteps = .next (n, t)) :
    ∃ u, runLoop maxSteps 0 { s with running := true } = .next (n, u) ∧ t = { u with running := false } := by
  unfold State.run at h
  split at h
  · rename_i r hr
    cases h
    exact ⟨r.2, hr, rfl⟩
  · cases h
  · cases h

theorem State.loadProgram_move (s : State) (bytes : List Byte) (start : Addr) :
    HostMove s (.loadProgram bytes start) (s.loadProgram bytes start) := by
  unfold State.loadProgram
  split
  · exact .loaded ‹_›
  · exact .notLoaded ‹_›

theorem State.executeDirect_next {s t : State} {w : Word} (h : s.executeDirect w = .next t) :
    s.halted = false ∧ executeWord w s = .next t := by
  unfold State.executeDirect at h
  split at h
  · cases h
  · exact ⟨Bool.not_eq_true _ ▸ ‹_›, h⟩

/-- A host operation that has a next state was made on a well-formed table and is one of the moves. -/
theorem hostApply_cases {op : HostOp} {s t : State} (h : hostApply op s = .next t) :
    tableWellFormed s.mmioTable = true ∧ HostMove s op t := by
  unfold hostApply at h
  split at h
  case isFalse => cases h
  case isTrue ht =>
    refine ⟨ht, ?_⟩
    cases op with
    | reset => cases h; exact .reset
    | step => exact .step h
    | run maxSteps =>
      simp only at h
      split at h
      · rename_i r hr
        cases h
        obtain ⟨u, hu, e⟩ := State.run_next hr
        exact e ▸ .run hu
      · cases h
      · cases h
    | execute w =>
      obtain ⟨hh, hw⟩ := State.executeDirect_next h
      exact .execute hh hw
    | loadProgram bytes start => cases h; exact s.loadProgram_move bytes start
    | clearMemory => cases h; exact .clearMemory
    | call c => cases h; exact .call c
    | getPc => cases h; exact .getPc
    | setPc address =>
      simp only [State.setPc] at h
      split at h
      · rename_i u hu
        cases h
        split at hu
        · cases hu
        · cases hu; exact .pcSet (by omega) (by omega)
      · cases h
        rename_i hu
        split at hu
        · exact .pcRejected ‹_›
        · cases hu
    | getState => cases h; exact .getState
    | setSyscallHandler hd => cases h; exact .setSyscallHandler hd
    | attachTrace on => cases h; exact .attachTrace on

/-! ### The obligations -/

theorem HostMove.keepsCoreInv {op : HostOp} {s t : State} (hs : CoreInv s) (h : HostMove s op t) : CoreInv t := by
  cases h with
  | reset => exact hs.hostReset
  | step h => exact step_keepsCoreInv hs h
  | run h => exact runLoop_keepsCoreInv hs h
  | execute _ h => exact executeWord_keepsCoreInv hs h
  | loaded h => exact hs.of_fields_eq rfl rfl rfl rfl (busLoadBulk_wf h)
  | notLoaded _ => exact hs.faultEntry _
  | clearMemory => exact hs.of_fields_eq rfl rfl rfl rfl fun _ => Memory.wf_nil
  | call c => exact hs.afterCall c
  | getPc | getState | pcRejected _ => exact hs
  | pcSet _ _ => exact hs.of_fields_eq rfl rfl rfl rfl id
  | setSyscallHandler _ => exact hs.of_fields_eq rfl rfl rfl rfl id
  | attachTrace _ => exact hs.of_fields_eq rfl rfl rfl rfl id

/-- Settles O41, by the moves of a host operation; `run` by induction on its step budget. -/
theorem hostOperationsKeepTheInvariant : Obligations.HostOperationsKeepTheInvariant := by
  unfold Obligations.HostOperationsKeepTheInvariant
  intro op s t hs h
  exact (hostApply_cases h).2.keepsCoreInv hs

/-- After creation no flag is set, no fault retained and no cell listed, so the wiring decides (decision D25). -/
theorem coreInv_created {table : List Binding} (h : tableWellFormed table = true) :
    CoreInv { State.reset with mmioTable := table } :=
  ⟨Memory.wf_nil, fun hf => absurd rfl hf, fun hf => Bool.noConfusion hf.1, h⟩

/-- Settles O59, by induction on how the state was reached. -/
theorem reachableStatesMeetTheInvariant : Obligations.ReachableStatesMeetTheInvariant := by
  unfold Obligations.ReachableStatesMeetTheInvariant
  intro s hs
  induction hs with
  | created table h => exact coreInv_created h
  | stepped s t _ next ih => exact step_keepsCoreInv ih next
  | hosted s t op _ next ih => exact hostOperationsKeepTheInvariant op s t ih next
  | answered s _ bytes replies ih => exact ih.of_fields_eq rfl rfl rfl rfl id

end Sys2Proof.Machine

/-! The canonical form of memory is unique (10_state.md R25). -/

namespace Sys2Proof.Machine

/-- The first listed cell stands where the memory first reads as something else than an unlisted cell, so a memory that
reads the same lists nothing before it. -/
theorem Memory.head_le_of_read_eq {lo a b : Nat} {v w : Byte} {m n : Memory}
    (hm : Memory.wfFrom lo ((a, v) :: m) = true)
    (h : Memory.read ((a, v) :: m) a = Memory.read ((b, w) :: n) a) : b ≤ a := by
  by_contra hlt
  obtain ⟨-, -, hv, -⟩ := Memory.wfFrom_cons.1 hm
  exact hv (by simpa [Memory.read, Nat.not_le.1 hlt] using h)

/-- A canonical memory that reads as unlisted everywhere lists no cell. -/
theorem Memory.eq_nil_of_read_unlisted {lo : Nat} {m : Memory} (hm : Memory.wfFrom lo m = true)
    (h : ∀ a, m.read a = Memory.unlisted) : m = [] := by
  cases m with
  | nil => rfl
  | cons c m =>
    obtain ⟨a, v⟩ := c
    obtain ⟨-, -, hv, -⟩ := Memory.wfFrom_cons.1 hm
    exact absurd (by simpa [Memory.read] using h a) hv

/-- Canonical memories with the same first cell that read alike have tails that read alike. -/
theorem Memory.read_tail_eq {a : Nat} {v w : Byte} {m n : Memory} (hm : Memory.wfFrom (a + 1) m = true)
    (hn : Memory.wfFrom (a + 1) n = true)
    (h : ∀ x, Memory.read ((a, v) :: m) x = Memory.read ((a, w) :: n) x) (x : Nat) : m.read x = n.read x := by
  by_cases hx : x ≤ a
  · rw [Memory.read_of_lt_bound hm (by omega), Memory.read_of_lt_bound hn (by omega)]
  · simpa [Memory.read, show ¬ x < a by omega, show x ≠ a by omega] using h x

theorem Memory.eq_of_read_eq {lo lo' : Nat} {m n : Memory} (hm : Memory.wfFrom lo m = true)
    (hn : Memory.wfFrom lo' n = true) (h : ∀ x, m.read x = n.read x) : m = n := by
  induction m generalizing lo lo' n with
  | nil => exact (Memory.eq_nil_of_read_unlisted hn fun x => (h x).symm).symm
  | cons c m ih =>
    obtain ⟨a, v⟩ := c
    cases n with
    | nil => exact Memory.eq_nil_of_read_unlisted hm h
    | cons d n =>
      obtain ⟨b, w⟩ := d
      obtain rfl : a = b :=
        le_antisymm (Memory.head_le_of_read_eq hn (h b).symm) (Memory.head_le_of_read_eq hm (h a))
      obtain rfl : v = w := by simpa [Memory.read] using h a
      obtain ⟨-, -, -, hm'⟩ := Memory.wfFrom_cons.1 hm
      obtain ⟨-, -, -, hn'⟩ := Memory.wfFrom_cons.1 hn
      rw [ih hm' hn' (Memory.read_tail_eq hm' hn' h)]

/-- Settles O10, by induction on the first memory. -/
theorem canonicalMemoriesThatReadAlikeAreEqual : Obligations.CanonicalMemoriesThatReadAlikeAreEqual := by
  unfold Obligations.CanonicalMemoriesThatReadAlikeAreEqual
  intro m n hm hn h
  exact Memory.eq_of_read_eq hm hn h

end Sys2Proof.Machine

/-! What every instruction, step and host operation leaves alone: `pc`, the handler slot, the wiring and `halted`. -/

namespace Sys2Proof.Machine

/-! ### Instructions -/

/-- `pc`, the handler slot and the wiring are as they were: no instruction's own execution changes them, HALT and a
fault included (10_state.md R18, R24, R26). -/
structure ExecFrame (s t : State) : Prop where
  pc : t.pc = s.pc
  handler : t.handler = s.handler
  mmioTable : t.mmioTable = s.mmioTable

theorem ControlKept.execFrame {s t : State} (k : ControlKept s t) : ExecFrame s t :=
  ⟨k.pc, k.handler, k.mmioTable⟩

theorem ExecFrame.trans {s t u : State} (h : ExecFrame s t) (k : ExecFrame t u) : ExecFrame s u :=
  ⟨k.pc.trans h.pc, k.handler.trans h.handler, k.mmioTable.trans h.mmioTable⟩

theorem State.faultEntry_frame (s : State) (f : FaultKind) : ExecFrame s (s.faultEntry f) := ⟨rfl, rfl, rfl⟩

theorem State.emitTrace_frame (s : State) (e : TraceEvent) : ExecFrame s (s.emitTrace e) := by
  constructor <;> simp

/-- The three ends of an instruction: HALT, a fault on the state as it was, or one that leaves `halted` alone. -/
theorem exec_cases {i : Instr} {s t : State} (h : exec i s = .next t) :
    (i = .halt ∧ t = s.setHalted) ∨ (∃ f, t = s.faultEntry f) ∨ (ExecFrame s t ∧ t.halted = s.halted) := by
  have completes {u : State} (k : ControlKept s u) : ExecFrame s u ∧ u.halted = s.halted := ⟨k.execFrame, k.halted⟩
  cases i with
  | nop => cases h; exact .inr (.inr (completes (.refl s)))
  | load reg1 reg2 imm =>
    rcases execLoad_cases reg1 reg2 imm s with ⟨f, -, e⟩ | ⟨v, u, -, hu, e⟩
    · cases e.symm.trans h; exact .inr (.inl ⟨f, rfl⟩)
    · cases e.symm.trans h; exact .inr (.inr ⟨⟨hu.pc, hu.handler, hu.mmioTable⟩, hu.halted⟩)
  | store reg1 reg2 imm =>
    rcases execStore_cases reg1 reg2 imm s with ⟨f, -, e⟩ | ⟨u, hu, e⟩
    · cases e.symm.trans h; exact .inr (.inl ⟨f, rfl⟩)
    · cases e.symm.trans h; exact .inr (.inr (completes (State.memWriteWord_keeps hu).1))
  | add reg1 reg2 => cases h; exact .inr (.inr ⟨⟨rfl, rfl, rfl⟩, rfl⟩)
  | sub reg1 reg2 => cases h; exact .inr (.inr ⟨⟨rfl, rfl, rfl⟩, rfl⟩)
  | syscall =>
    rcases execSyscall_cases s with ⟨-, e⟩ | ⟨handler, -, e⟩
    · cases e.symm.trans h; exact .inr (.inr ⟨s.emitTrace_frame _, s.emitTrace_halted _⟩)
    · exact .inr (.inr (completes (State.invokeHandler_next (e.symm.trans h)).1))
  | halt => cases h; exact .inl ⟨rfl, rfl⟩

theorem exec_frame {i : Instr} {s t : State} (h : exec i s = .next t) : ExecFrame s t := by
  rcases exec_cases h with ⟨-, rfl⟩ | ⟨f, rfl⟩ | ⟨hf, -⟩
  · exact ⟨rfl, rfl, rfl⟩
  · exact s.faultEntry_frame f
  · exact hf

/-- An instruction halts the core by a fault, which is retained, or as HALT (10_state.md R18, R20). -/
theorem exec_halts {i : Instr} {s t : State} (h : exec i s = .next t) (hs : s.halted = false)
    (ht : t.halted = true) : t.lastFault ≠ none ∨ i = .halt := by
  rcases exec_cases h with ⟨rfl, -⟩ | ⟨f, rfl⟩ | ⟨-, hkept⟩
  · exact .inr rfl
  · exact .inl (Option.some_ne_none f)
  · simp [ht, hs] at hkept

theorem executeWord_cases {w : Word} {s t : State} (h : executeWord w s = .next t) :
    (∃ i, decodeWord w = .ok i ∧ exec i (s.emitTrace (.decoded s.pc w (fieldsOf w))) = .next t) ∨
    t = (s.emitTrace (.decoded s.pc w (fieldsOf w))).faultEntry .unknownOpcode := by
  unfold executeWord at h
  split at h
  · exact .inl ⟨_, ‹_›, h⟩
  · cases h; exact .inr rfl

theorem executeWord_frame {w : Word} {s t : State} (h : executeWord w s = .next t) : ExecFrame s t := by
  rcases executeWord_cases h with ⟨i, -, hi⟩ | rfl
  · exact (s.emitTrace_frame _).trans (exec_frame hi)
  · exact (s.emitTrace_frame _).trans (State.faultEntry_frame _ _)

/-- A word halts the core by a fault, which is retained, or as a HALT. -/
theorem executeWord_halts {w : Word} {s t : State} (h : executeWord w s = .next t) (hs : s.halted = false)
    (ht : t.halted = true) : t.lastFault ≠ none ∨ decodeWord w = .ok .halt := by
  rcases executeWord_cases h with ⟨i, hw, hi⟩ | rfl
  · exact (exec_halts hi (by simpa using hs) ht).imp_right fun e => by rw [hw, e]
  · exact .inl (Option.some_ne_none _)

/-! ### Steps -/

/-- A fetch answers at an aligned `pc` only (20_memory.md R38). -/
theorem State.fetch_pcAligned {s u : State} {w : Word} (h : s.fetch = .ok (w, u)) : PcAligned s := by
  unfold State.fetch State.memReadWord at h
  rw [wordAddress_coreAddress] at h
  by_contra hp
  unfold PcAligned at hp
  rw [if_neg hp] at h
  cases h

theorem step_of_halted {s : State} (ht : tableWellFormed s.mmioTable = true) (hh : s.halted = true) :
    step s = .next s := by
  simp [step, instructionCycle, ht, hh]

/-- The two ends of a step of a running core: it halts where it stands, by a fault or by the HALT it fetched, or it
goes on by 4 from an aligned `pc` (10_state.md R17, R18). -/
theorem step_running_cases {s t : State} (hs : s.halted = false) (h : step s = .next t) :
    (t.halted = true ∧ t.pc = s.pc ∧ (t.lastFault ≠ none ∨ AtHalt s)) ∨
    (t.halted = false ∧ t.pc = s.pc + 4#16 ∧ PcAligned s) := by
  rcases (step_cases h).2 with ⟨hh, -⟩ | ⟨-, f, -, rfl⟩ | ⟨-, w, u, hf, hu, v, hv, rfl⟩
  · simp [hs] at hh
  · exact .inl ⟨rfl, rfl, .inl (Option.some_ne_none f)⟩
  · have hpc : v.pc = s.pc := (executeWord_frame hv).pc.trans hu.pc
    cases hh : v.halted with
    | true => exact .inl ⟨hh, hpc, (executeWord_halts hv (hu.halted.trans hs) hh).imp_right fun e => ⟨w, u, hf, e⟩⟩
    | false => exact .inr ⟨hh, congrArg (· + 4#16) hpc, State.fetch_pcAligned hf⟩

theorem step_keepsConfig {s t : State} (h : step s = .next t) :
    t.mmioTable = s.mmioTable ∧ t.handler = s.handler := by
  rcases (step_cases h).2 with ⟨-, rfl⟩ | ⟨-, f, -, rfl⟩ | ⟨-, w, u, -, hu, v, hv, rfl⟩
  · exact ⟨rfl, rfl⟩
  · exact ⟨rfl, rfl⟩
  · obtain ⟨-, hhandler, htable⟩ := hu.execFrame.trans (executeWord_frame hv)
    split
    · exact ⟨htable, hhandler⟩
    · exact ⟨htable, hhandler⟩

/-! ### Host operations -/

theorem runLoop_keepsConfig {budget n m : Nat} {s t : State} (h : runLoop budget n s = .next (m, t)) :
    t.mmioTable = s.mmioTable ∧ t.handler = s.handler := by
  refine runLoop_induction (P := fun u => u.mmioTable = s.mmioTable ∧ u.handler = s.handler) ?_ ⟨rfl, rfl⟩ h
  intro u v _ ⟨htable, hhandler⟩ huv
  obtain ⟨htable', hhandler'⟩ := step_keepsConfig huv
  exact ⟨htable'.trans htable, hhandler'.trans hhandler⟩

/-- No host operation changes the wiring, and one alone the handler slot (10_state.md R24, R26). -/
theorem HostMove.keepsConfig {op : HostOp} {s t : State} (h : HostMove s op t) :
    t.mmioTable = s.mmioTable ∧ ((∀ handler, op ≠ .setSyscallHandler handler) → t.handler = s.handler) := by
  cases h with
  | step h => exact ⟨(step_keepsConfig h).1, fun _ => (step_keepsConfig h).2⟩
  | run h => exact ⟨(runLoop_keepsConfig h).1, fun _ => (runLoop_keepsConfig h).2⟩
  | execute _ h => exact ⟨(executeWord_frame h).mmioTable, fun _ => (executeWord_frame h).handler⟩
  | call c => exact ⟨(s.afterCall_keeps c).1.mmioTable, fun _ => (s.afterCall_keeps c).1.handler⟩
  | setSyscallHandler handler => exact ⟨rfl, fun hne => absurd rfl (hne handler)⟩
  | reset | loaded _ | notLoaded _ | clearMemory | getPc | pcSet _ _ | pcRejected _ | getState | attachTrace _ =>
    exact ⟨rfl, fun _ => rfl⟩

/-- A halted core stays so under every host operation but reset (10_state.md R20). -/
theorem HostMove.keepsHalted {op : HostOp} {s t : State} (h : HostMove s op t)
    (ht : tableWellFormed s.mmioTable = true) (hs : s.halted = true) (hop : op ≠ .reset) : t.halted = true := by
  cases h with
  | reset => exact absurd rfl hop
  | step h => cases (step_of_halted ht hs).symm.trans h; exact hs
  | run h => cases (runLoop_of_halted (s := { s with running := true }) hs).symm.trans h; exact hs
  | execute hh _ => simp [hs] at hh
  | call c => exact (s.afterCall_keeps c).1.halted.trans hs
  | notLoaded _ => rfl
  | loaded _ | clearMemory | getPc | pcSet _ _ | pcRejected _ | getState | setSyscallHandler _ | attachTrace _ =>
    exact hs

/-! ### The obligations -/

/-- Settles O32, by the two ends of a step. -/
theorem stepAdvancesPcByFourOrHalts : Obligations.StepAdvancesPcByFourOrHalts := by
  unfold Obligations.StepAdvancesPcByFourOrHalts
  refine ⟨fun s t hs h => ?_, fun _ _ _ h => (exec_frame h).pc⟩
  rcases step_running_cases hs h with ⟨hh, hpc, hend⟩ | ⟨hh, hpc, -⟩
  · exact ⟨by simp [hh], fun _ => hpc, fun _ hnone => hend.resolve_left (absurd hnone)⟩
  · exact ⟨fun _ => by simp [hpc], by simp [hh], by simp [hh]⟩

theorem pcAligned_add_four {s t : State} (hs : PcAligned s) (hpc : t.pc = s.pc + 4#16) : PcAligned t := by
  unfold PcAligned at *
  simp only [hpc, BitVec.toNat_add, BitVec.toNat_ofNat, Config.wordBytes] at *
  omega

/-- Settles O33, by the two ends of a step; a halted core keeps its `pc`. -/
theorem stepKeepsPcAligned : Obligations.StepKeepsPcAligned := by
  unfold Obligations.StepKeepsPcAligned
  intro s t h
  cases hs : s.halted with
  | true =>
    cases (step_of_halted (step_cases h).1 hs).symm.trans h
    exact ⟨id, by simp [hs]⟩
  | false =>
    rcases step_running_cases hs h with ⟨hh, hpc, -⟩ | ⟨-, hpc, hal⟩
    · exact ⟨fun hal => by unfold PcAligned; rw [hpc]; exact hal, by simp [hh]⟩
    · exact ⟨fun _ => pcAligned_add_four hal hpc, fun _ => hal⟩

/-- Settles O34, by the moves of a host operation. -/
theorem haltedUntilReset : Obligations.HaltedUntilReset := by
  unfold Obligations.HaltedUntilReset
  intro s ht hs
  refine ⟨step_of_halted ht hs, fun op t hop h => (hostApply_cases h).2.keepsHalted ht hs hop, s.hostReset, ?_, rfl⟩
  simp [hostApply, ht]

/-- Settles O43, by the frames of an instruction, a step and a host operation. -/
theorem bindingTableNeverChanges : Obligations.BindingTableNeverChanges := by
  unfold Obligations.BindingTableNeverChanges
  exact ⟨fun _ _ _ h => (exec_frame h).mmioTable, fun _ _ h => (step_keepsConfig h).1,
    fun _ _ _ h => (hostApply_cases h).2.keepsConfig.1⟩

/-- Settles O44, by the moves of a host operation. -/
theorem handlerSlotChangesOnlyByItsPort : Obligations.HandlerSlotChangesOnlyByItsPort := by
  unfold Obligations.HandlerSlotChangesOnlyByItsPort
  refine ⟨fun _ _ _ h hop => (hostApply_cases h).2.keepsConfig.2 hop, fun s handler ht => ?_⟩
  simp [hostApply, ht, State.setSyscallHandler]

end Sys2Proof.Machine

/-! What no instruction reads: `running` and the trace port. A `Mask` rewrites these fields alone, and every operation of
a step commutes with it, so two states with the same masked state step alike. -/

namespace Sys2Proof.Machine

/-- A change of the fields that no rule of a step reads (10_state.md R21, 40_execution_cycle.md R85), such that what a
step writes to them it can write before the change or after it. -/
structure Mask where
  running : Bool → Bool
  traceAttached : Bool → Bool
  traceLog : List TraceEvent → List TraceEvent
  running_false : running false = false
  traceLog_emit (on : Bool) (log : List TraceEvent) (e : TraceEvent) :
    (if traceAttached on then traceLog log ++ [e] else traceLog log) = traceLog (if on then log ++ [e] else log)

def Mask.apply (k : Mask) (s : State) : State :=
  { s with running := k.running s.running, traceAttached := k.traceAttached s.traceAttached,
           traceLog := k.traceLog s.traceLog }

/-- A function on the next state of an outcome; a stop stays what it is. -/
def mapNext (g : State → State) : Host.Outcome State Fault Refusal → Host.Outcome State Fault Refusal
  | .next s => .next (g s)
  | .fault f => .fault f
  | .refused r => .refused r

theorem exceptMap_map {α β γ : Type} (e : Except FaultKind α) (f : α → β) (g : β → γ) :
    (e.map f).map g = e.map fun a => g (f a) := by
  cases e <;> rfl

namespace Mask

variable (k : Mask) (s : State)

/-! ### What a mask leaves to be read -/

@[simp] theorem apply_pc : (k.apply s).pc = s.pc := rfl
@[simp] theorem apply_halted : (k.apply s).halted = s.halted := rfl
@[simp] theorem apply_handler : (k.apply s).handler = s.handler := rfl
@[simp] theorem apply_mmioTable : (k.apply s).mmioTable = s.mmioTable := rfl
@[simp] theorem apply_getReg (i : RegIdx) : (k.apply s).getReg i = s.getReg i := rfl
@[simp] theorem apply_syscallNumber : (k.apply s).syscallNumber = s.syscallNumber := rfl
@[simp] theorem apply_effectiveAddress (r : RegIdx) (imm : Imm) :
    (k.apply s).effectiveAddress r imm = s.effectiveAddress r imm := rfl

/-! ### The state's operations commute with a mask -/

theorem apply_advancePc : (k.apply s).advancePc = k.apply s.advancePc := rfl
theorem apply_emitPort (e : PortEvent) : (k.apply s).emitPort e = k.apply (s.emitPort e) := rfl

theorem apply_faultEntry (f : FaultKind) : (k.apply s).faultEntry f = k.apply (s.faultEntry f) := by
  simp [apply, State.faultEntry, k.running_false]

theorem apply_setHalted : (k.apply s).setHalted = k.apply s.setHalted := by
  simp [apply, State.setHalted, k.running_false]

theorem apply_emitTrace (e : TraceEvent) : (k.apply s).emitTrace e = k.apply (s.emitTrace e) := by
  simp [apply, State.emitTrace_eq, k.traceLog_emit]

theorem apply_nextDeviceByte : (k.apply s).nextDeviceByte = Prod.map id k.apply s.nextDeviceByte := by
  unfold State.nextDeviceByte
  cases h : s.deviceReplies <;> simp [apply, h]

theorem apply_devRead (d : DeviceId) (off : BitVec 16) :
    (k.apply s).devRead d off = Prod.map id k.apply (s.devRead d off) := by
  simp [State.devRead, apply_nextDeviceByte, apply_emitPort]

theorem apply_devWrite (d : DeviceId) (off : BitVec 16) (v : Byte) :
    (k.apply s).devWrite d off v = k.apply (s.devWrite d off v) := rfl

theorem apply_devReadWord (d : DeviceId) (off : BitVec 16) :
    (k.apply s).devReadWord d off = Prod.map id k.apply (s.devReadWord d off) := by
  simp [State.devReadWord, apply_devRead]

theorem apply_devWriteWord (d : DeviceId) (off : BitVec 16) (v : Word) :
    (k.apply s).devWriteWord d off v = k.apply (s.devWriteWord d off v) := rfl

/-! ### The router -/

theorem apply_memReadByte (addr : Int) :
    (k.apply s).memReadByte addr = (s.memReadByte addr).map (Prod.map id k.apply) := by
  unfold State.memReadByte
  cases byteAddress addr with
  | error f => rfl
  | ok a =>
    simp only [apply_mmioTable]
    cases lookup s.mmioTable a with
    | some b => exact congrArg Except.ok (k.apply_devRead s _ _)
    | none => rfl

theorem apply_memWriteByte (addr : Int) (v : Byte) :
    (k.apply s).memWriteByte addr v = (s.memWriteByte addr v).map k.apply := by
  unfold State.memWriteByte
  cases byteAddress addr with
  | error f => rfl
  | ok a =>
    simp only [apply_mmioTable]
    cases lookup s.mmioTable a with
    | some b => exact congrArg Except.ok (k.apply_devWrite s _ _ v)
    | none => rfl

theorem apply_memReadWord (addr : Int) :
    (k.apply s).memReadWord addr = (s.memReadWord addr).map (Prod.map id k.apply) := by
  unfold State.memReadWord
  cases wordAddress addr with
  | error f => rfl
  | ok a =>
    simp only [apply_mmioTable]
    cases lookup s.mmioTable a with
    | some b => exact congrArg Except.ok (k.apply_devReadWord s _ _)
    | none => rfl

theorem apply_memWriteWord (addr : Int) (v : Word) :
    (k.apply s).memWriteWord addr v = (s.memWriteWord addr v).map k.apply := by
  unfold State.memWriteWord
  cases wordAddress addr with
  | error f => rfl
  | ok a =>
    simp only [apply_mmioTable]
    cases lookup s.mmioTable a with
    | some b => exact congrArg Except.ok (k.apply_devWriteWord s _ _ v)
    | none => rfl

/-! ### Direct calls and the handler -/

theorem apply_directCall (c : DirectCall) :
    (k.apply s).directCall c = (s.directCall c).map (Prod.map id k.apply) := by
  cases c with
  | memReadByte addr => simp [State.directCall, apply_memReadByte, exceptMap_map]
  | memWriteByte addr v => simp [State.directCall, apply_memWriteByte, exceptMap_map]
  | memReadWord addr => simp [State.directCall, apply_memReadWord, exceptMap_map]
  | memWriteWord addr v => simp [State.directCall, apply_memWriteWord, exceptMap_map]
  | get _ | set _ _ | busReadByte _ | busWriteByte _ _ | busReadWord _ | busWriteWord _ _ | busLoadBulk _ _
  | dumpMemory _ _ => simp only [State.directCall, exceptMap_map]; rfl

theorem apply_afterCall (c : DirectCall) : (k.apply s).afterCall c = k.apply (s.afterCall c) := by
  unfold State.afterCall
  rw [apply_directCall]
  cases s.directCall c <;> rfl

theorem apply_performCalls (cs : List DirectCall) :
    (k.apply s).performCalls cs = k.apply (s.performCalls cs) := by
  induction cs generalizing s with
  | nil => rfl
  | cons c cs ih => simp [State.performCalls, apply_afterCall, ih]

theorem apply_nextHandlerReply : (k.apply s).nextHandlerReply = Prod.map id k.apply s.nextHandlerReply := by
  unfold State.nextHandlerReply
  cases h : s.handlerReplies <;> simp [apply, h]

theorem apply_invokeHandler (h : HandlerId) (n : Byte) :
    (k.apply s).invokeHandler h n = mapNext k.apply (s.invokeHandler h n) := by
  unfold State.invokeHandler
  rw [apply_emitPort, apply_nextHandlerReply]
  obtain ⟨_ | calls, t⟩ := (s.emitPort (.syscall h n)).nextHandlerReply
  · exact congrArg Host.Outcome.next (k.apply_performCalls t _)
  · rfl

/-! ### Instructions and steps -/

theorem apply_exec (i : Instr) : exec i (k.apply s) = mapNext k.apply (exec i s) := by
  cases i with
  | nop => rfl
  | load reg1 reg2 imm =>
    simp only [exec, execLoad, apply_effectiveAddress, apply_memReadWord]
    cases s.memReadWord (coreAddress (s.effectiveAddress reg2 imm)) with
    | error f => exact congrArg Host.Outcome.next (k.apply_faultEntry s f)
    | ok r => rfl
  | store reg1 reg2 imm =>
    simp only [exec, execStore, apply_effectiveAddress, apply_getReg, apply_memWriteWord]
    cases s.memWriteWord (coreAddress (s.effectiveAddress reg2 imm)) (s.getReg reg1) with
    | error f => exact congrArg Host.Outcome.next (k.apply_faultEntry s f)
    | ok t => rfl
  | add reg1 reg2 => rfl
  | sub reg1 reg2 => rfl
  | syscall =>
    simp only [exec, execSyscall, apply_handler, apply_syscallNumber]
    cases s.handler with
    | none => exact congrArg Host.Outcome.next (k.apply_emitTrace s _)
    | some h => exact k.apply_invokeHandler s h _
  | halt => exact congrArg Host.Outcome.next (k.apply_setHalted s)

theorem apply_executeWord (w : Word) : executeWord w (k.apply s) = mapNext k.apply (executeWord w s) := by
  unfold executeWord
  rw [apply_pc, apply_emitTrace]
  cases decodeWord w with
  | ok i => exact k.apply_exec _ i
  | error e => exact congrArg Host.Outcome.next (k.apply_faultEntry _ _)

theorem advanceUnlessHalted_mapNext (o : Host.Outcome State Fault Refusal) :
    advanceUnlessHalted (mapNext k.apply o) = mapNext k.apply (advanceUnlessHalted o) := by
  cases o with
  | next t => cases h : t.halted <;> simp [advanceUnlessHalted, mapNext, h, apply_advancePc]
  | fault f => rfl
  | refused r => rfl

theorem apply_fetch : (k.apply s).fetch = s.fetch.map (Prod.map id k.apply) :=
  k.apply_memReadWord s _

theorem apply_step : step (k.apply s) = mapNext k.apply (step s) := by
  unfold step instructionCycle
  rw [apply_mmioTable, apply_halted, apply_fetch]
  split
  · split
    · rfl
    · cases s.fetch with
      | error f => exact congrArg Host.Outcome.next (k.apply_faultEntry s f)
      | ok r =>
        show advanceUnlessHalted (executeWord r.1 (k.apply r.2)) = _
        rw [apply_executeWord, advanceUnlessHalted_mapNext]
  · rfl

end Mask

/-! ### Two states that a mask makes equal -/

/-- Outcomes that are equal under a function of the next state: next states that it makes equal, or the same stop. -/
theorem agree_of_mapNext_eq {g : State → State} {o o' : Host.Outcome State Fault Refusal}
    (h : mapNext g o = mapNext g o') :
    (∀ t, o = .next t → ∃ t', o' = .next t' ∧ g t = g t') ∧ (∀ f, o = .fault f → o' = .fault f) ∧
      (∀ r, o = .refused r → o' = .refused r) := by
  refine ⟨?_, ?_, ?_⟩ <;> rintro x rfl
  · cases o' with
    | next t' => exact ⟨t', rfl, Host.Outcome.next.inj h⟩
    | fault f | refused r => cases h
  · cases o' with
    | fault f => cases h; rfl
    | next t' | refused r => cases h
  · cases o' with
    | refused r => cases h; rfl
    | next t' | fault f => cases h

/-- States that a mask makes equal step to states that it makes equal, or stop for the same reason. -/
theorem Mask.step_agrees (k : Mask) {s s' : State} (h : k.apply s = k.apply s') :
    (∀ t, step s = .next t → ∃ t', step s' = .next t' ∧ k.apply t = k.apply t') ∧
      (∀ f, step s = .fault f → step s' = .fault f) ∧ (∀ r, step s = .refused r → step s' = .refused r) :=
  agree_of_mapNext_eq (by rw [← k.apply_step, ← k.apply_step, h])

/-- The mask that clears `running`. -/
def Mask.hideRunning : Mask where
  running := fun _ => false
  traceAttached := id
  traceLog := id
  running_false := rfl
  traceLog_emit := fun _ _ _ => rfl

/-- Settles O47: a step commutes with the mask that clears `running`, and the two states are one under it. -/
theorem stepDoesNotReadRunning : Obligations.StepDoesNotReadRunning := by
  unfold Obligations.StepDoesNotReadRunning
  intro s
  exact Mask.hideRunning.step_agrees (s := s) (s' := { s with running := !s.running }) rfl

end Sys2Proof.Machine

/-! Memory accesses (20_memory.md): the address checks, the raw bus, the binding table and the routed accesses. -/

namespace Sys2Proof.Machine

/-! ### The address checks -/

theorem byteAddress_outside {addr : Int} (h : addr < 0 ∨ 0x10000 ≤ addr) :
    byteAddress addr = .error .addressOutOfBounds :=
  if_pos h

theorem byteAddress_inside {addr : Int} (h0 : 0 ≤ addr) (h1 : addr < 0x10000) : byteAddress addr = .ok addr.toNat :=
  if_neg (not_or.2 ⟨not_lt.2 h0, not_le.2 h1⟩)

theorem wordAddress_outside {addr : Int} (h : addr < 0 ∨ 0x10000 ≤ addr) :
    wordAddress addr = .error .addressOutOfBounds := by
  simp only [wordAddress, byteAddress_outside h]

theorem wordAddress_misaligned {addr : Int} (h0 : 0 ≤ addr) (h1 : addr < 0x10000) (hal : addr % 4 ≠ 0) :
    wordAddress addr = .error .unalignedAccess := by
  simp only [wordAddress, byteAddress_inside h0 h1]
  exact if_pos (by simp only [Config.wordBytes]; omega)

theorem wordAddress_aligned {addr : Int} (h0 : 0 ≤ addr) (h1 : addr < 0x10000) (hal : addr % 4 = 0) :
    wordAddress addr = .ok addr.toNat := by
  refine wordAddress_ok.2 ⟨by omega, ?_, ?_⟩
  · simp only [Config.memSize]; omega
  · simp only [Config.wordBytes]; omega

/-- The core's own aligned address passes both checks (20_memory.md R53). -/
theorem wordAddress_coreAddress_aligned {a : Addr} (hal : a.toNat % 4 = 0) :
    wordAddress (coreAddress a) = .ok a.toNat :=
  wordAddress_ok.2 ⟨rfl, a.isLt, hal⟩

/-- No address of the core fails the bounds check. -/
theorem wordAddress_coreAddress_ne_outOfBounds (a : Addr) :
    wordAddress (coreAddress a) ≠ .error .addressOutOfBounds := by
  rw [wordAddress_coreAddress]
  split <;> simp

/-! ### The raw bus -/

/-- Settles O6, by the bounds check and the law of a read after a write. -/
theorem busByteAccess : Obligations.BusByteAccess := by
  unfold Obligations.BusByteAccess
  intro m addr v hm
  refine ⟨fun h => ?_, fun h0 h1 => ?_⟩
  · simp [busReadByte, busWriteByte, byteAddress_outside h]
  · simp only [busReadByte, busWriteByte, byteAddress_inside h0 h1]
    refine ⟨trivial, _, rfl, ?_, fun b hb => ?_⟩
    · simp [Memory.read_write hm]
    · simp [Memory.read_write hm, hb]

/-- Settles O7, by the two checks and the law of a read after a word write. -/
theorem busWordAccess : Obligations.BusWordAccess := by
  unfold Obligations.BusWordAccess
  intro m addr v hm
  refine ⟨fun h => ?_, fun h0 h1 hal => ?_, fun h0 h1 hal => ?_⟩
  · simp [busReadWord, busWriteWord, wordAddress_outside h]
  · simp [busReadWord, busWriteWord, wordAddress_misaligned h0 h1 hal]
  · have ha := wordAddress_aligned h0 h1 hal
    have hread := Memory.read_writeWord (v := v) hm (wordAddress_fits ha)
    simp only [busReadWord, busWriteWord, ha]
    refine ⟨⟨_, rfl, toNat_packWord _ _ _ _⟩, _, rfl, ?_, ?_, ?_, ?_, fun b hb => ?_⟩
    · simp [hread, toNat_byte0]
    · simp [hread, toNat_byte1]
    · simp [hread, toNat_byte2]
    · simp [hread, toNat_byte3]
    · rw [hread, if_neg (by omega), if_neg (by omega), if_neg (by omega), if_neg (by omega)]

/-- A word read back from where it was written. -/
theorem Memory.readWord_writeWord {m : Memory} {a : Nat} (v : Word) (h : Memory.wf m = true)
    (hb : a + 3 < Config.memSize) : (m.writeWord a v).readWord a = v := by
  simp [Memory.readWord, Memory.read_writeWord h hb]

/-- Bytes written from `a` on: every other cell holds what it held. -/
theorem Memory.read_writeBytes_outside {bytes : List Byte} {m : Memory} {a b : Nat} (h : Memory.wf m = true)
    (hfit : a + bytes.length ≤ Config.memSize) (hb : b < a ∨ a + bytes.length ≤ b) :
    (m.writeBytes a bytes).read b = m.read b := by
  induction bytes generalizing m a with
  | nil => rfl
  | cons v vs ih =>
    simp only [List.length_cons] at hfit hb
    calc ((m.write a v).writeBytes (a + 1) vs).read b
        = (m.write a v).read b := ih (Memory.write_wf h (by omega)) (by omega) (by omega)
      _ = m.read b := by rw [Memory.read_write h, if_neg (by omega)]

/-- Bytes written from `a` on: the cell `i` places up holds the `i`th byte, which no later write reaches. -/
theorem Memory.read_writeBytes_inside {bytes : List Byte} {m : Memory} {a : Nat} (h : Memory.wf m = true)
    (hfit : a + bytes.length ≤ Config.memSize) (i : Nat) (hi : i < bytes.length) :
    (m.writeBytes a bytes).read (a + i) = bytes[i] := by
  induction bytes generalizing m a i with
  | nil => cases hi
  | cons v vs ih =>
    simp only [List.length_cons] at hfit hi
    have hwf : Memory.wf (m.write a v) = true := Memory.write_wf h (by omega)
    cases i with
    | zero =>
      calc ((m.write a v).writeBytes (a + 1) vs).read a
          = (m.write a v).read a := Memory.read_writeBytes_outside hwf (by omega) (by omega)
        _ = v := by rw [Memory.read_write h, if_pos rfl]
    | succ j =>
      rw [show a + (j + 1) = a + 1 + j by omega]
      exact ih hwf (by omega) j (by omega)

/-- Settles O9, by induction on the bytes for what lies inside the copy and for what lies outside. -/
theorem bulkLoadCopiesAllOrNothing : Obligations.BulkLoadCopiesAllOrNothing := by
  unfold Obligations.BulkLoadCopiesAllOrNothing
  intro m addr bytes hm
  refine ⟨fun h => ?_, fun h0 h1 hlong => ?_, fun h0 h1 hfits => ?_⟩
  · simp only [busLoadBulk, byteAddress_outside h]
  · simp only [busLoadBulk, byteAddress_inside h0 h1]
    exact if_pos (by simp only [Config.memSize]; omega)
  · have hfit : addr.toNat + bytes.length ≤ Config.memSize := by simp only [Config.memSize]; omega
    refine ⟨m.writeBytes addr.toNat bytes, ?_, Memory.writeBytes_wf hm hfit,
      Memory.read_writeBytes_inside hm hfit, fun b => Memory.read_writeBytes_outside hm hfit⟩
    simp only [busLoadBulk, byteAddress_inside h0 h1]
    exact if_neg (not_lt.2 hfit)

/-! ### Accesses as direct calls -/

theorem exceptMap_error {α β : Type} {e : Except FaultKind α} {g : α → β} {f : FaultKind} :
    e.map g = .error f ↔ e = .error f := by
  cases e <;> simp [Except.map]

/-- The check that a byte or word access of either layer makes of its address; the other calls have none here. -/
def accessCheck : DirectCall → Option (Except FaultKind Nat)
  | .busReadByte addr | .busWriteByte addr _ | .memReadByte addr | .memWriteByte addr _ => some (byteAddress addr)
  | .busReadWord addr | .busWriteWord addr _ | .memReadWord addr | .memWriteWord addr _ => some (wordAddress addr)
  | .get _ | .set _ _ | .busLoadBulk _ _ | .dumpMemory _ _ => none

/-- A byte or word access faults exactly as the check of its address does (20_memory.md R36, R38, R47). -/
theorem State.directCall_error_iff {s : State} {c : DirectCall} {k : Except FaultKind Nat} {f : FaultKind}
    (h : accessCheck c = some k) : s.directCall c = .error f ↔ k = .error f := by
  cases c with
  | busReadByte addr | busWriteByte addr v =>
    cases h
    simp only [State.directCall, exceptMap_error, busReadByte, busWriteByte]
    cases byteAddress addr <;> simp
  | busReadWord addr | busWriteWord addr v =>
    cases h
    simp only [State.directCall, exceptMap_error, busReadWord, busWriteWord]
    cases wordAddress addr <;> simp
  | memReadByte addr | memWriteByte addr v =>
    cases h
    simp only [State.directCall, exceptMap_error, State.memReadByte, State.memWriteByte]
    cases byteAddress addr with
    | error g => simp
    | ok a => cases hl : lookup s.mmioTable a <;> simp [hl]
  | memReadWord addr | memWriteWord addr v =>
    cases h
    simp only [State.directCall, exceptMap_error, State.memReadWord, State.memWriteWord]
    cases wordAddress addr with
    | error g => simp
    | ok a => cases hl : lookup s.mmioTable a <;> simp [hl]
  | get _ | set _ _ | busLoadBulk _ _ | dumpMemory _ _ => cases h

/-- Settles O8: an access faults exactly as the check of its address does, and a bulk load makes that check first. -/
theorem boundsAreCheckedFirst : Obligations.BoundsAreCheckedFirst := by
  unfold Obligations.BoundsAreCheckedFirst
  refine ⟨fun s addr v w bytes h => ?_, fun s a v w => ?_⟩
  · have byte {c : DirectCall} (hc : accessCheck c = some (byteAddress addr)) :
        s.directCall c = .error .addressOutOfBounds :=
      (State.directCall_error_iff hc).2 (byteAddress_outside h)
    have word {c : DirectCall} (hc : accessCheck c = some (wordAddress addr)) :
        s.directCall c = .error .addressOutOfBounds :=
      (State.directCall_error_iff hc).2 (wordAddress_outside h)
    have bulk : s.directCall (.busLoadBulk addr bytes) = .error .addressOutOfBounds := by
      simp only [State.directCall, exceptMap_error, busLoadBulk, byteAddress_outside h]
    simp only [List.forall_mem_cons, List.not_mem_nil, false_imp_iff, implies_true, and_true]
    exact ⟨byte rfl, byte rfl, word rfl, word rfl, bulk, byte rfl, byte rfl, word rfl, word rfl⟩
  · have byte {c : DirectCall} (hc : accessCheck c = some (byteAddress (coreAddress a))) :
        s.directCall c ≠ .error .addressOutOfBounds :=
      (State.directCall_error_iff hc).not.2 (by simp)
    have word {c : DirectCall} (hc : accessCheck c = some (wordAddress (coreAddress a))) :
        s.directCall c ≠ .error .addressOutOfBounds :=
      (State.directCall_error_iff hc).not.2 (wordAddress_coreAddress_ne_outOfBounds a)
    simp only [List.forall_mem_cons, List.not_mem_nil, false_imp_iff, implies_true, and_true]
    exact ⟨byte rfl, byte rfl, word rfl, word rfl, byte rfl, byte rfl, word rfl, word rfl⟩

/-! ### The binding table -/

/-- A binding of a well-formed table is a block of whole aligned words inside the space (20_memory.md R44). -/
theorem binding_bounds {t : List Binding} {b : Binding} (ht : tableWellFormed t = true) (hb : b ∈ t) :
    b.base.toNat + b.length.toNat ≤ 0x10000 ∧ b.base.toNat % 4 = 0 ∧ b.length.toNat % 4 = 0 := by
  simp only [tableWellFormed, Bool.and_eq_true, List.all_eq_true, Binding.insideSpace, Binding.wholeWords,
    decide_eq_true_eq] at ht
  obtain ⟨hall, -⟩ := ht
  obtain ⟨⟨-, hspace⟩, hbase, hlength⟩ := hall b hb
  exact ⟨hspace, hbase, hlength⟩

/-- Two different bindings of a well-formed table share no address (20_memory.md R44 item 4). -/
theorem bindings_disjoint {t : List Binding} {b c : Binding} (ht : tableWellFormed t = true) (hb : b ∈ t)
    (hc : c ∈ t) (hne : b ≠ c) :
    b.base.toNat + b.length.toNat ≤ c.base.toNat ∨ c.base.toNat + c.length.toNat ≤ b.base.toNat := by
  simp only [tableWellFormed, Bool.and_eq_true, decide_eq_true_eq] at ht
  obtain ⟨-, hpairs⟩ := ht
  have hsymm : Std.Symm fun b c : Binding => b.disjoint c = true :=
    ⟨fun b c h => by simpa [Binding.disjoint, or_comm] using h⟩
  simpa [Binding.disjoint] using hpairs.forall hb hc hne

theorem lookup_none_iff {t : List Binding} {a : Nat} :
    lookup t a = none ↔ ∀ b ∈ t, a < b.base.toNat ∨ b.base.toNat + b.length.toNat ≤ a := by
  simp only [lookup, List.find?_eq_none, Binding.covers, Bool.and_eq_true, decide_eq_true_eq, not_and_or, not_le,
    not_lt]

/-- The lookup finds any binding that covers the address: the one it finds covers it too, so it is no other. -/
theorem lookup_of_covers {t : List Binding} {a : Nat} {b : Binding} (ht : tableWellFormed t = true) (hb : b ∈ t)
    (hlo : b.base.toNat ≤ a) (hhi : a < b.base.toNat + b.length.toNat) : lookup t a = some b := by
  cases hl : lookup t a with
  | none =>
    have := lookup_none_iff.1 hl b hb
    omega
  | some c =>
    obtain ⟨hc, hclo, hchi⟩ := lookup_some hl
    by_contra hne
    have := bindings_disjoint ht hb hc fun e => hne (e ▸ rfl)
    omega

/-- Settles O11, by the disjointness of the bindings. -/
theorem lookupFindsTheCoveringBinding : Obligations.LookupFindsTheCoveringBinding := by
  unfold Obligations.LookupFindsTheCoveringBinding
  intro t a ht
  exact ⟨fun b => ⟨lookup_some, fun ⟨hb, hlo, hhi⟩ => lookup_of_covers ht hb hlo hhi⟩, lookup_none_iff⟩

/-- Settles O12: the block is a whole number of aligned words, so it holds the last byte of the word as well. -/
theorem routedWordStaysInsideTheBlock : Obligations.RoutedWordStaysInsideTheBlock := by
  unfold Obligations.RoutedWordStaysInsideTheBlock
  intro t a b ht hal hl
  obtain ⟨hb, hlo, hhi⟩ := lookup_some hl
  obtain ⟨hspace, hbase, hlength⟩ := binding_bounds ht hb
  have hoff : (Binding.offset b a).toNat = a - b.base.toNat := by
    rw [Binding.offset, BitVec.toNat_ofNat, Nat.mod_eq_of_lt (by omega)]
  exact ⟨hoff, by omega, by omega, by omega⟩

/-- An aligned word whose first byte lies outside every device range lies outside them with all its bytes. -/
theorem lookup_none_of_word {t : List Binding} {a k : Nat} (ht : tableWellFormed t = true) (hal : a % 4 = 0)
    (hk : k < 4) (h : lookup t a = none) : lookup t (a + k) = none := by
  refine lookup_none_iff.2 fun b hb => ?_
  obtain ⟨-, hbase, hlength⟩ := binding_bounds ht hb
  have := lookup_none_iff.1 h b hb
  omega

/-! ### Routed accesses -/

theorem CoreKept.sameRegs {s t : State} (k : CoreKept s t) : SameRegsBut [] s t :=
  fun r _ => by simp only [State.getReg, k.regs]

theorem CoreKept.sameMemory {s t : State} (k : CoreKept s t) : SameMemory s t :=
  fun a => by rw [k.ram]

theorem ControlKept.sameControl {s t : State} (k : ControlKept s t) : SameControl s t :=
  ⟨k.pc, k.halted, k.running, k.lastFault, k.handler⟩

theorem State.memReadByte_device {s : State} {a : Addr} {b : Binding} (h : lookup s.mmioTable a.toNat = some b) :
    s.memReadByte (coreAddress a) = .ok (s.devRead b.device (Binding.offset b a.toNat)) := by
  simp only [State.memReadByte, byteAddress_coreAddress, h]

theorem State.memWriteByte_device {s : State} {a : Addr} {b : Binding} {v : Byte}
    (h : lookup s.mmioTable a.toNat = some b) :
    s.memWriteByte (coreAddress a) v = .ok (s.devWrite b.device (Binding.offset b a.toNat) v) := by
  simp only [State.memWriteByte, byteAddress_coreAddress, h]

theorem State.memReadByte_ram {s : State} {a : Addr} (h : lookup s.mmioTable a.toNat = none) :
    s.memReadByte (coreAddress a) = .ok (s.ram.read a.toNat, s) := by
  simp only [State.memReadByte, byteAddress_coreAddress, h]

theorem State.memWriteByte_ram {s : State} {a : Addr} {v : Byte} (h : lookup s.mmioTable a.toNat = none) :
    s.memWriteByte (coreAddress a) v = .ok { s with ram := s.ram.write a.toNat v } := by
  simp only [State.memWriteByte, byteAddress_coreAddress, h]

theorem State.memReadWord_ram {s : State} {a : Addr} (hal : a.toNat % 4 = 0) (h : lookup s.mmioTable a.toNat = none) :
    s.memReadWord (coreAddress a) = .ok (s.ram.readWord a.toNat, s) := by
  simp only [State.memReadWord, wordAddress_coreAddress_aligned hal, h]

theorem State.memWriteWord_ram {s : State} {a : Addr} {v : Word} (hal : a.toNat % 4 = 0)
    (h : lookup s.mmioTable a.toNat = none) :
    s.memWriteWord (coreAddress a) v = .ok { s with ram := s.ram.writeWord a.toNat v } := by
  simp only [State.memWriteWord, wordAddress_coreAddress_aligned hal, h]

/-- Settles O13, by what the router makes of a byte access inside and outside the device ranges. -/
theorem routerByteAccess : Obligations.RouterByteAccess := by
  unfold Obligations.RouterByteAccess
  intro s a v hm
  refine ⟨fun b h => ⟨?_, ?_⟩, fun h => ⟨State.memReadByte_ram h, ?_⟩⟩
  · have k := s.devRead_kept b.device (Binding.offset b a.toNat)
    exact ⟨_, _, State.memReadByte_device h, k.sameRegs, k.sameMemory, k.sameControl, s.devRead_portLog _ _⟩
  · have k := s.devWrite_kept b.device (Binding.offset b a.toNat) v
    exact ⟨_, State.memWriteByte_device h, k.sameRegs, k.sameMemory, k.sameControl, rfl⟩
  · refine ⟨_, State.memWriteByte_ram h, ?_, ⟨rfl, rfl, rfl, rfl, rfl⟩, fun c hc => ?_⟩
    · simp [Memory.read_write hm]
    · simp [Memory.read_write hm, hc]

/-- Settles O21: the store and the fetch reach the same four cells. -/
theorem storedWordIsWhatTheNextFetchGets : Obligations.StoredWordIsWhatTheNextFetchGets := by
  unfold Obligations.StoredWordIsWhatTheNextFetchGets
  intro s t u reg1 reg2 imm hm hal hl hstore hram htable hpc
  have hwrite := State.memWriteWord_ram (v := s.getReg reg1) hal hl
  have ht : t = { s with ram := s.ram.writeWord (s.effectiveAddress reg2 imm).toNat (s.getReg reg1) } := by
    rcases execStore_cases reg1 reg2 imm s with ⟨f, hf, -⟩ | ⟨t', ht', e⟩
    · cases hwrite.symm.trans hf
    · cases hwrite.symm.trans ht'
      exact Host.Outcome.next.inj (hstore.symm.trans e)
  subst ht
  have hfits := wordAddress_fits (wordAddress_coreAddress_aligned hal)
  unfold State.fetch
  rw [hpc, State.memReadWord_ram hal (by rw [htable]; exact hl), hram, Memory.readWord_writeWord _ hm hfits]

end Sys2Proof.Machine

/-! RAM under a device range (20_memory.md R50): a step of a state and of the same state with another memory, which
differs in shadowed cells only, come to the same. -/

namespace Sys2Proof.Machine

/-! ### The same state with another memory -/

/-- The state with the memory `n` in place of its own. -/
def State.withRam (s : State) (n : Memory) : State := { s with ram := n }

/-- The wiring is well formed, and `n` is a canonical memory that reads as the state's own at every address outside the
device ranges. -/
structure ShadowVariant (s : State) (n : Memory) : Prop where
  table : tableWellFormed s.mmioTable = true
  wf : Memory.wf s.ram = true
  wf_variant : Memory.wf n = true
  read_eq : ∀ a : Nat, lookup s.mmioTable a = none → s.ram.read a = n.read a

theorem AgreeButShadowedRam.eq_withRam {s s' : State} (h : AgreeButShadowedRam s s') : s' = s.withRam s'.ram :=
  (congrArg (fun u => State.withRam u s'.ram) h.1).symm

section
variable {s t : State} {n : Memory}

theorem ShadowVariant.agree (h : ShadowVariant s n) : AgreeButShadowedRam s (s.withRam n) :=
  ⟨rfl, h.read_eq⟩

/-- Whether a memory is a variant depends on the wiring and the RAM of the state alone. -/
theorem ShadowVariant.of_fields_eq (h : ShadowVariant s n) (table : t.mmioTable = s.mmioTable) (ram : t.ram = s.ram) :
    ShadowVariant t n := by
  obtain ⟨htable, hwf, hwf', hread⟩ := h
  exact ⟨table ▸ htable, ram ▸ hwf, hwf', by rw [table, ram]; exact hread⟩

/-- An aligned word outside the device ranges reads alike. -/
theorem ShadowVariant.readWord_eq (h : ShadowVariant s n) {a : Nat} (hal : a % 4 = 0)
    (hl : lookup s.mmioTable a = none) : s.ram.readWord a = n.readWord a := by
  have read (k : Nat) (hk : k < 4) : s.ram.read (a + k) = n.read (a + k) :=
    h.read_eq _ (lookup_none_of_word h.table hal hk hl)
  rw [Memory.readWord, Memory.readWord, h.read_eq a hl, read 1 (by omega), read 2 (by omega), read 3 (by omega)]

/-- The same word written to both memories. -/
theorem ShadowVariant.writeWord (h : ShadowVariant s n) {a : Nat} (ha : a + 3 < Config.memSize) (v : Word) :
    ShadowVariant { s with ram := s.ram.writeWord a v } (n.writeWord a v) where
  table := h.table
  wf := Memory.writeWord_wf h.wf ha
  wf_variant := Memory.writeWord_wf h.wf_variant ha
  read_eq b hb := by
    simp only [Memory.read_writeWord h.wf ha, Memory.read_writeWord h.wf_variant ha, h.read_eq b hb]

end

/-! ### The state's operations with another memory -/

section
variable (s : State) (n : Memory)

theorem State.withRam_emitTrace (e : TraceEvent) : (s.withRam n).emitTrace e = (s.emitTrace e).withRam n := by
  simp [State.withRam, State.emitTrace_eq]

theorem State.withRam_devRead (d : DeviceId) (off : BitVec 16) :
    (s.withRam n).devRead d off = Prod.map id (·.withRam n) (s.devRead d off) := by
  unfold State.devRead State.nextDeviceByte
  cases h : s.deviceReplies <;> simp [State.withRam, h, State.emitPort]

theorem State.withRam_devReadWord (d : DeviceId) (off : BitVec 16) :
    (s.withRam n).devReadWord d off = Prod.map id (·.withRam n) (s.devReadWord d off) := by
  simp [State.devReadWord, State.withRam_devRead]

end

section
variable {s : State} {n : Memory}

/-- A routed word read answers the same: from a device, or from four cells that lie outside every device range. -/
theorem ShadowVariant.memReadWord (h : ShadowVariant s n) (addr : Int) :
    (s.withRam n).memReadWord addr = (s.memReadWord addr).map (Prod.map id (·.withRam n)) := by
  unfold State.memReadWord
  cases ha : wordAddress addr with
  | error f => rfl
  | ok a =>
    obtain ⟨-, -, hal⟩ := wordAddress_ok.1 ha
    simp only [show (s.withRam n).mmioTable = s.mmioTable from rfl]
    cases hl : lookup s.mmioTable a with
    | some b => exact congrArg Except.ok (s.withRam_devReadWord n _ _)
    | none => exact congrArg (fun w => Except.ok (w, s.withRam n)) (h.readWord_eq hal hl).symm

/-! ### Instructions and steps -/

/-- Two outcomes from which no shadowed cell can be told: next states that agree but there, or the same stop. -/
inductive OutcomesAgree : Host.Outcome State Fault Refusal → Host.Outcome State Fault Refusal → Prop where
  | next {t t' : State} (h : AgreeButShadowedRam t t') : OutcomesAgree (.next t) (.next t')
  | fault (f : Fault) : OutcomesAgree (.fault f) (.fault f)
  | refused (r : Refusal) : OutcomesAgree (.refused r) (.refused r)

theorem OutcomesAgree.of_next {t : State} {o : Host.Outcome State Fault Refusal} (h : OutcomesAgree (.next t) o) :
    ∃ t', o = .next t' ∧ AgreeButShadowedRam t t' := by
  cases h with
  | next h => exact ⟨_, rfl, h⟩

theorem OutcomesAgree.of_refused {r : Refusal} {o : Host.Outcome State Fault Refusal}
    (h : OutcomesAgree (.refused r) o) : o = .refused r := by
  cases h
  rfl

theorem ShadowVariant.execLoad (h : ShadowVariant s n) (reg1 reg2 : RegIdx) (imm : Imm) :
    OutcomesAgree (execLoad reg1 reg2 imm s) (execLoad reg1 reg2 imm (s.withRam n)) := by
  unfold Machine.execLoad
  rw [show (s.withRam n).effectiveAddress reg2 imm = s.effectiveAddress reg2 imm from rfl, h.memReadWord]
  cases hr : s.memReadWord (coreAddress (s.effectiveAddress reg2 imm)) with
  | error f => exact .next (h.of_fields_eq (t := s.faultEntry f) rfl rfl).agree
  | ok r =>
    have k := State.memReadWord_kept hr
    exact .next (h.of_fields_eq (t := r.2.setReg reg1 r.1) k.mmioTable k.ram).agree

theorem ShadowVariant.execStore (h : ShadowVariant s n) (reg1 reg2 : RegIdx) (imm : Imm) :
    OutcomesAgree (execStore reg1 reg2 imm s) (execStore reg1 reg2 imm (s.withRam n)) := by
  unfold Machine.execStore State.memWriteWord
  simp only [show (s.withRam n).effectiveAddress reg2 imm = s.effectiveAddress reg2 imm from rfl,
    show (s.withRam n).mmioTable = s.mmioTable from rfl]
  cases ha : wordAddress (coreAddress (s.effectiveAddress reg2 imm)) with
  | error f => exact .next (h.of_fields_eq (t := s.faultEntry f) rfl rfl).agree
  | ok a =>
    cases hl : lookup s.mmioTable a with
    | some b =>
      simp only [hl]
      have k := s.devWriteWord_kept b.device (Binding.offset b a) (s.getReg reg1)
      exact .next (h.of_fields_eq k.mmioTable k.ram).agree
    | none =>
      simp only [hl]
      exact .next (h.writeWord (wordAddress_fits ha) (s.getReg reg1)).agree

/-- An instruction cannot tell the memories apart, a SYSCALL with a connected handler left out. -/
theorem ShadowVariant.exec (h : ShadowVariant s n) {i : Instr} (hi : i = .syscall → s.handler = none) :
    OutcomesAgree (exec i s) (exec i (s.withRam n)) := by
  cases i with
  | nop => exact .next h.agree
  | load reg1 reg2 imm => exact h.execLoad reg1 reg2 imm
  | store reg1 reg2 imm => exact h.execStore reg1 reg2 imm
  | add reg1 reg2 => exact .next (h.of_fields_eq (t := s.setReg reg1 _) rfl rfl).agree
  | sub reg1 reg2 => exact .next (h.of_fields_eq (t := s.setReg reg1 _) rfl rfl).agree
  | syscall =>
    have hnone := hi rfl
    simp only [Machine.exec, execSyscall, hnone, show (s.withRam n).handler = none from hnone, s.withRam_emitTrace]
    exact .next (h.of_fields_eq (s.emitTrace_mmioTable _) (s.emitTrace_ram _)).agree
  | halt => exact .next (h.of_fields_eq (t := s.setHalted) rfl rfl).agree

theorem ShadowVariant.executeWord (h : ShadowVariant s n) {w : Word}
    (hw : s.handler ≠ none → decodeWord w ≠ .ok .syscall) :
    OutcomesAgree (executeWord w s) (executeWord w (s.withRam n)) := by
  unfold Machine.executeWord
  rw [s.withRam_emitTrace, show (s.withRam n).pc = s.pc from rfl]
  have hu : ShadowVariant (s.emitTrace (.decoded s.pc w (fieldsOf w))) n :=
    h.of_fields_eq (s.emitTrace_mmioTable _) (s.emitTrace_ram _)
  cases hd : decodeWord w with
  | ok i =>
    refine hu.exec fun hi => ?_
    rw [State.emitTrace_handler]
    by_contra hne
    exact hw hne (hi ▸ hd)
  | error e => exact .next (hu.of_fields_eq (t := State.faultEntry _ .unknownOpcode) rfl rfl).agree

theorem AgreeButShadowedRam.halted_eq {t t' : State} (h : AgreeButShadowedRam t t') : t.halted = t'.halted := by
  simpa using congrArg State.halted h.1

theorem AgreeButShadowedRam.advancePc {t t' : State} (h : AgreeButShadowedRam t t') :
    AgreeButShadowedRam t.advancePc t'.advancePc :=
  ⟨congrArg State.advancePc h.1, h.2⟩

theorem OutcomesAgree.advanceUnlessHalted {o o' : Host.Outcome State Fault Refusal} (h : OutcomesAgree o o') :
    OutcomesAgree (advanceUnlessHalted o) (advanceUnlessHalted o') := by
  cases h with
  | @next t t' h =>
    simp only [Machine.advanceUnlessHalted, ← h.halted_eq]
    split
    · exact .next h
    · exact .next h.advancePc
  | fault f => exact .fault f
  | refused r => exact .refused r

theorem ShadowVariant.step (h : ShadowVariant s n)
    (hs : s.handler ≠ none → ∀ (w : Word) (u : State), s.fetch = .ok (w, u) → decodeWord w ≠ .ok .syscall) :
    OutcomesAgree (step s) (step (s.withRam n)) := by
  have hf : (s.withRam n).fetch = s.fetch.map (Prod.map id (·.withRam n)) := h.memReadWord _
  unfold Machine.step instructionCycle
  rw [hf, if_pos h.table, if_pos (show tableWellFormed (s.withRam n).mmioTable = true from h.table),
    show (s.withRam n).halted = s.halted from rfl]
  split
  · exact .next h.agree
  · cases hr : s.fetch with
    | error f => exact .next (h.of_fields_eq (t := s.faultEntry f) rfl rfl).agree
    | ok r =>
      have k := State.memReadWord_kept hr
      refine (ShadowVariant.executeWord (h.of_fields_eq k.mmioTable k.ram) ?_).advanceUnlessHalted
      rw [k.handler]
      exact fun hne => hs hne r.1 r.2 hr

end

/-- A step on an ill-formed table is refused, whatever else the state holds (20_memory.md R44, decision D7). -/
theorem step_of_illFormed {s : State} (h : tableWellFormed s.mmioTable = false) :
    step s = .refused .illFormedMmioTable := by
  simp [step, instructionCycle, h]

/-- Settles O48: the second state is the first with another memory, which no access of the step tells from its own. -/
theorem shadowedRamIsUnobservable : Obligations.ShadowedRamIsUnobservable := by
  unfold Obligations.ShadowedRamIsUnobservable
  intro s s' hm hm' hagree hs
  have h : OutcomesAgree (step s) (step s') := by
    rw [hagree.eq_withRam]
    cases ht : tableWellFormed s.mmioTable with
    | true => exact ShadowVariant.step ⟨ht, hm, hm', hagree.2⟩ hs
    | false =>
      rw [step_of_illFormed ht, step_of_illFormed (s := s.withRam s'.ram) ht]
      exact .refused _
  exact ⟨fun t ht => OutcomesAgree.of_next (ht ▸ h), fun r hr => OutcomesAgree.of_refused (hr ▸ h)⟩

end Sys2Proof.Machine

/-! The encoding: the fields of a word as numbers, decoding as the inverse of encoding, and the opcodes that are not in
the table (30_encoding.md). -/

namespace Sys2Proof

/-! ### The fields of a word as numbers -/

@[simp] theorem toNat_fieldsOf_opcode (w : Word) : (fieldsOf w).opcode.toNat = w.toNat / 2 ^ 24 := toNat_byte0 w

@[simp] theorem val_fieldsOf_reg1 (w : Word) : (fieldsOf w).reg1.val = w.toNat / 2 ^ 20 % 16 := by
  simp [fieldsOf, Nat.shiftRight_eq_div_pow]

@[simp] theorem val_fieldsOf_reg2 (w : Word) : (fieldsOf w).reg2.val = w.toNat / 2 ^ 16 % 16 := by
  simp [fieldsOf, Nat.shiftRight_eq_div_pow]

@[simp] theorem toNat_fieldsOf_imm (w : Word) : (fieldsOf w).imm.toNat = w.toNat % 2 ^ 16 := by
  simp [fieldsOf]

/-- The fields put together, as a number (30_encoding.md R76). -/
theorem toNat_wordOfFields (f : Fields) :
    (wordOfFields f).toNat =
      f.opcode.toNat * 2 ^ 24 + f.reg1.val * 2 ^ 20 + f.reg2.val * 2 ^ 16 + f.imm.toNat := by
  simp only [wordOfFields, BitVec.toNat_append]
  rw [← Nat.shiftLeft_add_eq_or_of_lt f.imm.isLt, ← Nat.shiftLeft_add_eq_or_of_lt (BitVec.isLt _),
    ← Nat.shiftLeft_add_eq_or_of_lt (BitVec.isLt _)]
  simp only [Nat.shiftLeft_eq, BitVec.toNat_ofFin]
  omega

/-- The fields tile the word (30_encoding.md R65): the word's number has one reading as four fields. -/
theorem fieldsOf_eq {w : Word} {f : Fields}
    (h : w.toNat = f.opcode.toNat * 2 ^ 24 + f.reg1.val * 2 ^ 20 + f.reg2.val * 2 ^ 16 + f.imm.toNat) :
    fieldsOf w = f := by
  obtain ⟨opcode, reg1, reg2, imm⟩ := f
  simp only at h
  have hreg1 := reg1.isLt
  have hreg2 := reg2.isLt
  have himm := imm.isLt
  have hopcode : (fieldsOf w).opcode = opcode := BitVec.eq_of_toNat_eq (by simp only [toNat_fieldsOf_opcode]; omega)
  have hr1 : (fieldsOf w).reg1 = reg1 := Fin.ext (by simp only [val_fieldsOf_reg1]; omega)
  have hr2 : (fieldsOf w).reg2 = reg2 := Fin.ext (by simp only [val_fieldsOf_reg2]; omega)
  have hi : (fieldsOf w).imm = imm := BitVec.eq_of_toNat_eq (by simp only [toNat_fieldsOf_imm]; omega)
  rw [← hopcode, ← hr1, ← hr2, ← hi]

@[simp] theorem fieldsOf_wordOfFields (f : Fields) : fieldsOf (wordOfFields f) = f :=
  fieldsOf_eq (toNat_wordOfFields f)

/-! ### Decoding an encoded instruction -/

@[simp] theorem decodeFields_encodeFields (i : Instr) : decodeFields (encodeFields i) = .ok i := by
  cases i <;> rfl

@[simp] theorem decodeWord_encode (i : Instr) : decodeWord (encode i) = .ok i := by
  simp [decodeWord, encode]

/-- Settles O1: the fields survive the word, the word survives its bytes, and decoding undoes encoding on fields. -/
theorem decodeOfEncodeIsTheInstruction : Obligations.DecodeOfEncodeIsTheInstruction := by
  unfold Obligations.DecodeOfEncodeIsTheInstruction
  intro i
  exact ⟨decodeWord_encode i, (decodeBytes_bytesOfWord (encode i)).trans (decodeWord_encode i)⟩

/-- Settles O2, by the number of each field. -/
theorem decodeSplitsEveryWord : Obligations.DecodeSplitsEveryWord := by
  unfold Obligations.DecodeSplitsEveryWord
  exact fun w => ⟨toNat_fieldsOf_opcode w, val_fieldsOf_reg1 w, val_fieldsOf_reg2 w, toNat_fieldsOf_imm w⟩

/-- Settles O3: the word has the one reading `fieldsOf_eq` gives, on which each listed opcode evaluates to its
instruction, whatever the other fields hold. -/
theorem opcodeAloneSelectsTheInstruction : Obligations.OpcodeAloneSelectsTheInstruction := by
  unfold Obligations.OpcodeAloneSelectsTheInstruction
  intro opcode reg1 reg2 imm h1 h2 hopcode himm w hw
  have hfields : fieldsOf w = ⟨BitVec.ofNat 8 opcode, ⟨reg1, h1⟩, ⟨reg2, h2⟩, BitVec.ofNat 16 imm⟩ :=
    fieldsOf_eq (by simpa [Nat.mod_eq_of_lt hopcode, Nat.mod_eq_of_lt himm] using hw)
  have hdecode := congrArg decodeFields hfields
  refine ⟨?_, ?_, ?_, ?_, ?_, ?_, ?_⟩
  all_goals
    rintro rfl
    exact hdecode

/-- Settles O4, by evaluating the decoder on each word. -/
theorem sampleWordsDecode : Obligations.SampleWordsDecode := by
  unfold Obligations.SampleWordsDecode
  exact ⟨rfl, rfl, rfl, rfl, rfl, rfl, rfl, rfl, rfl⟩

/-! ### The opcodes that are not in the table -/

/-- The decoder turns away exactly the opcodes `0x06 .. 0xFE` (30_encoding.md R72, decisions D1 and D3). -/
theorem decodeFields_error_iff (f : Fields) :
    (∃ e, decodeFields f = .error e) ↔ 0x06 ≤ f.opcode.toNat ∧ f.opcode.toNat ≤ 0xFE := by
  unfold decodeFields
  split_ifs with h0 h1 h2 h3 h4 h5 h6
  case neg =>
    refine iff_of_true ⟨_, rfl⟩ ?_
    bv_omega
  -- a listed opcode: it decodes, and its number is outside the range
  all_goals simp [*]

theorem decodeWord_error_iff (w : Word) :
    (∃ e, decodeWord w = .error e) ↔ 0x06 ≤ w.toNat / 2 ^ 24 ∧ w.toNat / 2 ^ 24 ≤ 0xFE := by
  rw [← toNat_fieldsOf_opcode]
  exact decodeFields_error_iff (fieldsOf w)

theorem packWord_and_packWord (a b c d a' b' c' d' : Byte) :
    packWord a b c d &&& packWord a' b' c' d' = packWord (a &&& a') (b &&& b') (c &&& c') (d &&& d') := by
  refine BitVec.eq_of_getLsbD_eq fun i _ => ?_
  simp only [BitVec.getLsbD_and, getLsbD_packWord]
  split_ifs <;> rfl

/-- Masking with `0xFF000000` leaves the opcode in its place and zero in every other field. -/
theorem toNat_and_opcodeMask (w : Word) : (w &&& 0xFF000000#32).toNat = w.toNat / 2 ^ 24 * 2 ^ 24 := by
  have hmask : (0xFF000000#32 : Word) = packWord 0xFF#8 0#8 0#8 0#8 := rfl
  have hbyte (b : Byte) : b &&& 0xFF#8 = b := BitVec.and_allOnes
  have hmasked : w &&& 0xFF000000#32 = packWord (byte0 w) 0#8 0#8 0#8 := by
    rw [hmask, ← packWord_bytes w, packWord_and_packWord, packWord_bytes, hbyte]
    simp only [BitVec.and_zero]
  rw [hmasked, toNat_packWord, toNat_byte0]
  simp only [BitVec.toNat_ofNat, Nat.zero_mod, Nat.zero_mul, Nat.add_zero]

theorem decodeWord_error_iff_masked (w : Word) :
    (∃ e, decodeWord w = .error e) ↔
      w &&& 0xFF000000#32 ∉ [0x00000000#32, 0x01000000#32, 0x02000000#32, 0x03000000#32, 0x04000000#32,
        0x05000000#32, 0xFF000000#32] := by
  have hw := w.isLt
  simp only [decodeWord_error_iff, List.mem_cons, List.not_mem_nil, or_false, ← BitVec.toNat_inj, toNat_and_opcodeMask,
    BitVec.toNat_ofNat]
  omega

end Sys2Proof

namespace Sys2Proof.Machine

/-- A fetch leaves everything of the core as it was (20_memory.md R47). -/
theorem Fetches.coreKept {s u : State} {w : Word} (h : Fetches s w u) : CoreKept s u := by
  obtain ⟨-, -, hfetch⟩ := h
  exact State.memReadWord_kept hfetch

/-- A step that fetches a word executes it and then advances `pc` (40_execution_cycle.md R79). -/
theorem step_of_fetches {s u : State} {w : Word} (h : Fetches s w u) :
    step s = advanceUnlessHalted (executeWord w u) := by
  obtain ⟨htable, hrunning, hfetch⟩ := h
  simp [step, instructionCycle, htable, hrunning, hfetch]

/-- A word that is no instruction leaves its trace event and takes fault entry (30_encoding.md R72). -/
theorem executeWord_of_error {w : Word} {e : DecodeError} (h : decodeWord w = .error e) (s : State) :
    executeWord w s = .next ((s.emitTrace (.decoded s.pc w (fieldsOf w))).faultEntry .unknownOpcode) := by
  simp [executeWord, h]

theorem step_of_fetches_error {s u : State} {w : Word} {e : DecodeError} (h : Fetches s w u)
    (hd : decodeWord w = .error e) :
    step s = .next ((u.emitTrace (.decoded u.pc w (fieldsOf w))).faultEntry .unknownOpcode) := by
  simp [step_of_fetches h, executeWord_of_error hd, advanceUnlessHalted]

/-- Settles O5: the decoder turns away exactly these opcodes, and the fault entry that follows keeps what the fetch
kept, which is everything of the core. -/
theorem unlistedOpcodeFaultsAndChangesNothing : Obligations.UnlistedOpcodeFaultsAndChangesNothing := by
  unfold Obligations.UnlistedOpcodeFaultsAndChangesNothing
  refine fun w => ⟨decodeWord_error_iff w, decodeWord_error_iff_masked w, fun hlo hhi s u h => ?_⟩
  obtain ⟨e, hd⟩ := (decodeWord_error_iff w).2 ⟨hlo, hhi⟩
  have k := h.coreKept
  refine ⟨_, step_of_fetches_error h hd, rfl, rfl, fun r hr => ?_, fun a => ?_, ?_⟩
  · simpa using k.sameRegs r hr
  · simpa using k.sameMemory a
  · simpa using k.pc

end Sys2Proof.Machine

/-! The instruction cycle (40_execution_cycle.md): the observer, what a fetch answers, the placed word, what a step
makes of the fetched word, and the steps that a run makes. -/

namespace Sys2Proof.Machine

/-! ### The observer (R85) -/

/-- The mask that takes the observer off the trace port and forgets what it saw. -/
def Mask.hideTrace : Mask where
  running := id
  traceAttached := fun _ => false
  traceLog := fun _ => []
  running_false := rfl
  traceLog_emit := fun _ _ _ => rfl

theorem Mask.hideTrace_apply (s : State) : Mask.hideTrace.apply s = s.eraseTrace := rfl

/-- Settles O46: a step commutes with the mask that hides the trace port, and the two states are one under it. -/
theorem tracePortDoesNotInfluenceTheCore : Obligations.TracePortDoesNotInfluenceTheCore := by
  unfold Obligations.TracePortDoesNotInfluenceTheCore
  simp only [← Mask.hideTrace_apply]
  exact fun s s' h => Mask.hideTrace.step_agrees h

/-! ### A routed word read, by where its address lies (20_memory.md R48) -/

theorem CoreKept.sameWiring {s t : State} (k : CoreKept s t) : SameWiring s t :=
  ⟨k.mmioTable, k.handlerReplies⟩

theorem ControlKept.sameTrace {s t : State} (k : ControlKept s t) : SameTrace s t :=
  ⟨k.traceAttached, k.traceLog⟩

theorem State.memReadWord_misaligned {s : State} {a : Addr} (hal : a.toNat % 4 ≠ 0) :
    s.memReadWord (coreAddress a) = .error .unalignedAccess := by
  simp only [State.memReadWord, wordAddress_coreAddress, Config.wordBytes, if_neg hal]

theorem State.memReadWord_device {s : State} {a : Addr} {b : Binding} (hal : a.toNat % 4 = 0)
    (h : lookup s.mmioTable a.toNat = some b) :
    s.memReadWord (coreAddress a) = .ok (s.devReadWord b.device (Binding.offset b a.toNat)) := by
  simp only [State.memReadWord, wordAddress_coreAddress_aligned hal, h]

/-- The offset of the byte `k` places above an address. -/
theorem Binding.offset_add (b : Binding) (a k : Nat) :
    Binding.offset b a + BitVec.ofNat 16 k = BitVec.ofNat 16 (a - b.base.toNat + k) :=
  (BitVec.ofNat_add _ _).symm

/-- A device read answers the next byte the state holds and uses it up (log entry 4). -/
theorem State.devRead_of_reply {s : State} {q : Byte} {rest : List Byte} (h : s.deviceReplies = q :: rest)
    (d : DeviceId) (off : BitVec 16) : (s.devRead d off).1 = q ∧ (s.devRead d off).2.deviceReplies = rest := by
  simp [State.devRead, State.nextDeviceByte, h]

/-- A device word read answers the next four bytes the state holds, big-endian, and uses them up. -/
theorem State.devReadWord_of_replies {s : State} {q0 q1 q2 q3 : Byte} {rest : List Byte}
    (h : s.deviceReplies = q0 :: q1 :: q2 :: q3 :: rest) (d : DeviceId) (off : BitVec 16) :
    (s.devReadWord d off).1 = packWord q0 q1 q2 q3 ∧ (s.devReadWord d off).2.deviceReplies = rest := by
  obtain ⟨h0, h⟩ := State.devRead_of_reply h d off
  obtain ⟨h1, h⟩ := State.devRead_of_reply h d (off + 1)
  obtain ⟨h2, h⟩ := State.devRead_of_reply h d (off + 2)
  obtain ⟨h3, h⟩ := State.devRead_of_reply h d (off + 3)
  exact ⟨by simp only [State.devReadWord, h0, h1, h2, h3], h⟩

/-- A device word read makes four register reads at ascending offsets (decisions D5, D6). -/
theorem State.devReadWord_reads (s : State) (d : DeviceId) (off : BitVec 16) :
    ∃ r0 r1 r2 r3 : Byte, (s.devReadWord d off).1 = packWord r0 r1 r2 r3 ∧
      (s.devReadWord d off).2.portLog = s.portLog ++
        [.devRead d off r0, .devRead d (off + 1) r1, .devRead d (off + 2) r2, .devRead d (off + 3) r3] :=
  ⟨_, _, _, _, rfl, by simp [State.devReadWord]⟩

theorem packWord_inj {a b c d a' b' c' d' : Byte} (h : packWord a b c d = packWord a' b' c' d') :
    a = a' ∧ b = b' ∧ c = c' ∧ d = d' :=
  ⟨by simpa using congrArg byte0 h, by simpa using congrArg byte1 h, by simpa using congrArg byte2 h,
    by simpa using congrArg byte3 h⟩

/-! ### The fetch -/

/-- A fetch that faults is a step that takes that fault (60_exceptions.md R122). -/
theorem step_of_fetch_error {s : State} {f : FaultKind} (ht : tableWellFormed s.mmioTable = true)
    (hh : s.halted = false) (hf : s.fetch = .error f) : step s = .next (s.faultEntry f) := by
  simp [step, instructionCycle, ht, hh, hf]

/-- Settles O31: a fetch is a routed word read at `pc`, so the three places its address can lie in decide. -/
theorem fetchReadsTheWordOrFaults : Obligations.FetchReadsTheWordOrFaults := by
  unfold Obligations.FetchReadsTheWordOrFaults
  refine fun s => ⟨fun hal hl => ?_, fun b hal hl => ?_, fun hal ht hh => ?_⟩
  · exact ⟨_, State.memReadWord_ram hal hl, toNat_packWord _ _ _ _⟩
  · have k := s.devReadWord_kept b.device (Binding.offset b s.pc.toNat)
    obtain ⟨r0, r1, r2, r3, hword, hlog⟩ := s.devReadWord_reads b.device (Binding.offset b s.pc.toNat)
    have hfetch : s.fetch = .ok (packWord r0 r1 r2 r3, (s.devReadWord b.device (Binding.offset b s.pc.toNat)).2) :=
      (State.memReadWord_device hal hl).trans (congrArg Except.ok (Prod.ext hword rfl))
    refine ⟨_, _, r0, r1, r2, r3, hfetch, toNat_packWord _ _ _ _, ?_, fun q0 q1 q2 q3 rest hq => ?_,
      k.sameRegs, k.sameControl, k.sameMemory, k.sameWiring, k.sameTrace⟩
    · simp only [← Binding.offset_add]
      exact hlog
    · obtain ⟨hqword, hrest⟩ := State.devReadWord_of_replies hq b.device (Binding.offset b s.pc.toNat)
      exact ⟨packWord_inj (hword.symm.trans hqword), hrest⟩
  · have hfetch : s.fetch = .error .unalignedAccess := State.memReadWord_misaligned hal
    exact ⟨hfetch, step_of_fetch_error ht hh hfetch⟩

/-! ### The placed word (log entry 20) -/

section
variable (s : State) (w : Word)

/-- The address of the word that the placing reaches: `pc` rounded down to a multiple of 4. -/
def State.fetchSlot : Nat := s.pc.toNat - s.pc.toNat % 4

theorem State.fetchSlot_aligned : s.fetchSlot % 4 = 0 := by unfold State.fetchSlot; omega

theorem State.fetchSlot_fits : s.fetchSlot + 3 < Config.memSize := by
  have := s.pc.isLt
  simp only [State.fetchSlot, Config.memSize]
  omega

theorem State.fetchSlot_of_pcAligned {s : State} (h : PcAligned s) : s.fetchSlot = s.pc.toNat := by
  unfold State.fetchSlot
  rw [show s.pc.toNat % 4 = 0 from h, Nat.sub_zero]

theorem State.placeFetchWord_pc : (s.placeFetchWord w).pc = BitVec.ofNat 16 s.fetchSlot := by
  unfold State.placeFetchWord; dsimp only; cases lookup s.mmioTable _ <;> rfl

theorem State.placeFetchWord_pc_toNat : (s.placeFetchWord w).pc.toNat = s.fetchSlot := by
  have hfits := s.fetchSlot_fits
  rw [State.placeFetchWord_pc, BitVec.toNat_ofNat, Nat.mod_eq_of_lt (by simp only [Config.memSize] at hfits; omega)]

@[simp] theorem State.placeFetchWord_halted : (s.placeFetchWord w).halted = false := by
  unfold State.placeFetchWord; dsimp only; cases lookup s.mmioTable _ <;> rfl

@[simp] theorem State.placeFetchWord_mmioTable : (s.placeFetchWord w).mmioTable = s.mmioTable := by
  unfold State.placeFetchWord; dsimp only; cases lookup s.mmioTable _ <;> rfl

@[simp] theorem State.placeFetchWord_handler : (s.placeFetchWord w).handler = s.handler := by
  unfold State.placeFetchWord; dsimp only; cases lookup s.mmioTable _ <;> rfl

@[simp] theorem State.placeFetchWord_getReg (r : RegIdx) : (s.placeFetchWord w).getReg r = s.getReg r := by
  unfold State.placeFetchWord; dsimp only; cases lookup s.mmioTable _ <;> rfl

variable {s}

/-- Outside the device ranges the word is placed in RAM. -/
theorem State.placeFetchWord_ram (h : lookup s.mmioTable s.fetchSlot = none) :
    (s.placeFetchWord w).ram = s.ram.writeWord s.fetchSlot w := by
  unfold State.fetchSlot at h
  simp only [State.placeFetchWord, h]
  rfl

/-- In a device range the word is placed in the device's coming answers. -/
theorem State.placeFetchWord_deviceReplies {b : Binding} (h : lookup s.mmioTable s.fetchSlot = some b) :
    (s.placeFetchWord w).deviceReplies = bytesOfWord w ++ s.deviceReplies := by
  unfold State.fetchSlot at h
  simp only [State.placeFetchWord, h]

/-- The fetch answers the placed word, from RAM or from the device. -/
theorem State.fetch_placeFetchWord (hm : Memory.wf s.ram = true) :
    ∃ u, (s.placeFetchWord w).fetch = .ok (w, u) := by
  have hpc := s.placeFetchWord_pc_toNat w
  have hal : (s.placeFetchWord w).pc.toNat % 4 = 0 := by rw [hpc]; exact s.fetchSlot_aligned
  have hlookup : lookup (s.placeFetchWord w).mmioTable (s.placeFetchWord w).pc.toNat =
      lookup s.mmioTable s.fetchSlot := by
    rw [hpc, State.placeFetchWord_mmioTable]
  cases hl : lookup s.mmioTable s.fetchSlot with
  | none =>
    refine ⟨s.placeFetchWord w, ?_⟩
    rw [State.fetch, State.memReadWord_ram hal (hlookup.trans hl), hpc, State.placeFetchWord_ram w hl,
      Memory.readWord_writeWord w hm s.fetchSlot_fits]
  | some b =>
    have hword := (State.devReadWord_of_replies (State.placeFetchWord_deviceReplies w hl) b.device
      (Binding.offset b (s.placeFetchWord w).pc.toNat)).1
    refine ⟨_, (State.memReadWord_device hal (hlookup.trans hl)).trans (congrArg Except.ok (Prod.ext ?_ rfl))⟩
    exact hword.trans (packWord_bytes w)

end

/-- Settles O58: the fetch answers the placed word, and neither it nor the placing touches registers or handler. -/
theorem placedWordIsFetchedNext : Obligations.PlacedWordIsFetchedNext := by
  unfold Obligations.PlacedWordIsFetchedNext
  intro s w ht hm
  obtain ⟨u, hu⟩ := State.fetch_placeFetchWord w hm
  have hfetches : Fetches (s.placeFetchWord w) w u := ⟨by simpa using ht, by simp, hu⟩
  have k := hfetches.coreKept
  refine ⟨u, hfetches, fun r hr => ?_, by simpa using k.handler, fun hp => ?_⟩
  · simpa using k.sameRegs r hr
  · rw [k.pc, State.placeFetchWord_pc, State.fetchSlot_of_pcAligned hp, BitVec.ofNat_toNat, BitVec.setWidth_eq]

/-! ### A step as the execution of the fetched word (R78, R79) -/

theorem executeWord_of_ok {w : Word} {i : Instr} (h : decodeWord w = .ok i) (s : State) :
    executeWord w s = exec i (s.emitTrace (.decoded s.pc w (fieldsOf w))) := by
  simp [executeWord, h]

theorem step_of_fetches_ok {s u : State} {w : Word} {i : Instr} (h : Fetches s w u) (hd : decodeWord w = .ok i) :
    step s = advanceUnlessHalted (exec i (u.emitTrace (.decoded s.pc w (fieldsOf w)))) := by
  rw [step_of_fetches h, executeWord_of_ok hd, h.coreKept.pc]

/-- Settles O30, by what a step makes of the fetched word; the fetch keeps the `pc` that the trace event shows. -/
theorem stepRunsTheDecodedInstruction : Obligations.StepRunsTheDecodedInstruction := by
  unfold Obligations.StepRunsTheDecodedInstruction
  intro s u w i h hd
  rw [step_of_fetches_ok h hd]
  refine ⟨fun t ht => ?_, fun f hf => ?_, fun r hr => ?_⟩
  · rw [ht]; rfl
  · rw [hf]; rfl
  · rw [hr]; rfl

/-! ### The steps that a run makes (R82) -/

theorem core_run_succ {M : Host.Core} {s u : M.State} (h : M.step s = .next u) (k : Nat) :
    M.run (k + 1) s = M.run k u := by
  simp only [Host.Core.run, h]

/-- One turn of the loop: a step is counted, and the loop goes on from the state it leaves, halted or not. -/
theorem runLoop_succ {budget n : Nat} {s : State} {r : Nat × State} (hs : s.halted = false)
    (h : runLoop (budget + 1) n s = .next r) : ∃ u, step s = .next u ∧ runLoop budget (n + 1) u = .next r := by
  rw [runLoop, if_neg (by simp [hs])] at h
  split at h
  · rename_i u hu
    refine ⟨u, hu, ?_⟩
    split at h
    · exact h
    · rw [← h]
      exact runLoop_of_halted (by simpa [State.continues] using ‹¬ u.continues = true›)
  · cases h
  · cases h

/-- `k` steps within the budget lead from `s` to `t`, each made on a core that was not halted; with fewer than the
budget the core is halted. -/
structure StepsWithin (budget k : Nat) (s t : State) : Prop where
  within : k ≤ budget
  halted_of_early : k < budget → t.halted = true
  made_unhalted : ∀ j < k, ∃ v, Sys2Proof.core.run j s = .next v ∧ v.halted = false
  leads : Sys2Proof.core.run k s = .next t

/-- No step, on an empty budget or a halted core. -/
theorem StepsWithin.zero {budget : Nat} {s : State} (h : 0 < budget → s.halted = true) :
    StepsWithin budget 0 s s where
  within := Nat.zero_le budget
  halted_of_early := h
  made_unhalted := fun _ hj => absurd hj (Nat.not_lt_zero _)
  leads := rfl

/-- A step on a core that is not halted, before steps within the rest of the budget. -/
theorem StepsWithin.cons {budget k : Nat} {s u t : State} (hs : s.halted = false) (hu : step s = .next u)
    (h : StepsWithin budget k u t) : StepsWithin (budget + 1) (k + 1) s t where
  within := Nat.succ_le_succ h.within
  halted_of_early := fun hk => h.halted_of_early (Nat.lt_of_succ_lt_succ hk)
  made_unhalted := fun j hj => by
    cases j with
    | zero => exact ⟨s, rfl, hs⟩
    | succ j =>
      obtain ⟨v, hv, hv_halted⟩ := h.made_unhalted j (Nat.lt_of_succ_lt_succ hj)
      exact ⟨v, (core_run_succ hu j).trans hv, hv_halted⟩
  leads := (core_run_succ hu k).trans h.leads

/-- The loop adds to its counter the number of steps it makes. -/
theorem runLoop_stepsWithin {budget n m : Nat} {s t : State} (h : runLoop budget n s = .next (m, t)) :
    ∃ k, m = n + k ∧ StepsWithin budget k s t := by
  induction budget generalizing n s with
  | zero =>
    cases h
    exact ⟨0, rfl, .zero fun hpos => absurd hpos (Nat.lt_irrefl 0)⟩
  | succ budget ih =>
    cases hs : s.halted with
    | true =>
      cases (runLoop_of_halted hs).symm.trans h
      exact ⟨0, rfl, .zero fun _ => hs⟩
    | false =>
      obtain ⟨u, hu, hloop⟩ := runLoop_succ hs h
      obtain ⟨k, rfl, hk⟩ := ih hloop
      exact ⟨k + 1, by omega, hk.cons hs hu⟩

/-- No step is made on a halted core. -/
theorem StepsWithin.eq_zero_of_halted {budget k : Nat} {s t : State} (h : StepsWithin budget k s t)
    (hs : s.halted = true) : k = 0 := by
  by_contra hk
  obtain ⟨v, hv, hv_halted⟩ := h.made_unhalted 0 (Nat.pos_of_ne_zero hk)
  cases hv
  simp [hs] at hv_halted

/-- Settles O38: `run` is its loop with `running` set before and cleared after; the loop by induction on its budget. -/
theorem runIsAtMostMaxStepsSteps : Obligations.RunIsAtMostMaxStepsSteps := by
  unfold Obligations.RunIsAtMostMaxStepsSteps
  intro s t maxSteps n h
  obtain ⟨u, hloop, rfl⟩ := State.run_next h
  obtain ⟨k, hn, hk⟩ := runLoop_stepsWithin hloop
  obtain rfl : n = k := by omega
  exact ⟨hk.within, rfl, hk.halted_of_early, hk.eq_zero_of_halted, hk.made_unhalted, u, hk.leads, rfl⟩

end Sys2Proof.Machine

/-! NOP (41_nop.md), with what every instruction that leaves the core running makes of its step. -/

namespace Sys2Proof.Machine

/-- An opcode byte is known by its number (30_encoding.md R66). -/
theorem fieldsOf_opcode_of_toNat {w : Word} {opcode : Byte} (h : w.toNat / 2 ^ 24 = opcode.toNat) :
    (fieldsOf w).opcode = opcode :=
  BitVec.eq_of_toNat_eq ((toNat_fieldsOf_opcode w).trans h)

/-- Opcode `0x00` is NOP, whatever the other fields of the word hold (30_encoding.md R71, decision D3). -/
theorem decodeWord_nop {w : Word} (h : w.toNat / 2 ^ 24 = 0x00) : decodeWord w = .ok .nop := by
  have hopcode : (fieldsOf w).opcode = 0x00#8 := fieldsOf_opcode_of_toNat h
  rw [decodeWord, decodeFields, if_pos hopcode]

theorem exec_nop (s : State) : exec .nop s = .next s := rfl

/-- An instruction that leaves the core running ends its step with the advance of `pc` (40_execution_cycle.md R79). -/
theorem step_of_exec_running {s u t : State} {w : Word} {i : Instr} (h : Fetches s w u) (hd : decodeWord w = .ok i)
    (hexec : exec i (u.emitTrace (.decoded s.pc w (fieldsOf w))) = .next t) (ht : t.halted = false) :
    step s = .next t.advancePc := by
  simp [step_of_fetches_ok h hd, hexec, advanceUnlessHalted, ht]

/-- A fetch finds the core running and leaves it so, and so does the trace event. -/
theorem Fetches.emitTrace_halted {s u : State} {w : Word} (h : Fetches s w u) (e : TraceEvent) :
    (u.emitTrace e).halted = false := by
  have k := h.coreKept
  obtain ⟨-, hrunning, -⟩ := h
  rw [State.emitTrace_halted, k.halted, hrunning]

/-- Settles O14: the opcode alone makes the word a NOP, which hands on the state of the trace event, still running. -/
theorem nopCompletes : Obligations.NopCompletes := by
  unfold Obligations.NopCompletes
  exact ⟨exec_nop, fun _ _ _ hopcode h =>
    step_of_exec_running h (decodeWord_nop hopcode) (exec_nop _) (h.emitTrace_halted _)⟩

end Sys2Proof.Machine

/-! LOAD and STORE (42_load_store.md): the effective address, and what each instruction makes of the routed access
there, in RAM, in a device range and at a misaligned address. -/

namespace Sys2Proof.Machine

/-! ### The effective address (R89) -/

/-- Truncation takes the sum modulo 2^16, which also absorbs the wrap of the 32-bit sum. -/
theorem State.toNat_effectiveAddress (s : State) (reg2 : RegIdx) (imm : Imm) :
    (s.effectiveAddress reg2 imm).toNat = ((s.getReg reg2).toNat + imm.toNat) % 0x10000 := by
  have himm := imm.isLt
  simp only [State.effectiveAddress, BitVec.truncate_eq_setWidth, BitVec.toNat_setWidth, BitVec.toNat_add]
  omega

/-- Settles O15: only the base modulo 65536 counts in a sum modulo 65536. -/
theorem effectiveAddressWraps : Obligations.EffectiveAddressWraps := by
  unfold Obligations.EffectiveAddressWraps
  refine fun s reg2 imm => ⟨s.toNat_effectiveAddress reg2 imm, ?_⟩
  rw [Nat.mod_add_mod, s.toNat_effectiveAddress]

/-! ### LOAD and STORE by what the routed access answers (R90, R91) -/

section
variable {s t : State} {reg1 reg2 : RegIdx} {imm : Imm} {v : Word} {f : FaultKind}

theorem exec_load_of_ok (h : s.memReadWord (coreAddress (s.effectiveAddress reg2 imm)) = .ok (v, t)) :
    exec (.load reg1 reg2 imm) s = .next (t.setReg reg1 v) := by
  simp only [exec, execLoad, h]

theorem exec_load_of_error (h : s.memReadWord (coreAddress (s.effectiveAddress reg2 imm)) = .error f) :
    exec (.load reg1 reg2 imm) s = .next (s.faultEntry f) := by
  simp only [exec, execLoad, h]

theorem exec_store_of_ok (h : s.memWriteWord (coreAddress (s.effectiveAddress reg2 imm)) (s.getReg reg1) = .ok t) :
    exec (.store reg1 reg2 imm) s = .next t := by
  simp only [exec, execStore, h]

theorem exec_store_of_error
    (h : s.memWriteWord (coreAddress (s.effectiveAddress reg2 imm)) (s.getReg reg1) = .error f) :
    exec (.store reg1 reg2 imm) s = .next (s.faultEntry f) := by
  simp only [exec, execStore, h]

end

theorem CoreKept.sameRegsBut_setReg {s t : State} (k : CoreKept s t) (i : RegIdx) (v : Word) :
    SameRegsBut [i] s (t.setReg i v) := fun r hr => by
  rw [State.getReg_setReg_of_ne t i r v (List.ne_of_not_mem_cons hr)]
  exact k.sameRegs r List.not_mem_nil

/-! ### RAM -/

/-- Settles O16: the routed read answers the four cells and hands the state on as it was, so the write of `reg1` is
the one change. -/
theorem loadFromRamCompletes : Obligations.LoadFromRamCompletes := by
  unfold Obligations.LoadFromRamCompletes
  rintro s reg1 reg2 imm _ rfl hal hl
  have k := CoreKept.refl s
  refine ⟨_, exec_load_of_ok (State.memReadWord_ram hal hl), ?_, k.sameRegsBut_setReg reg1 _, k.sameControl,
    k.sameMemory, ⟨rfl, rfl, rfl, rfl, rfl⟩, k.sameTrace⟩
  rw [State.getReg_setReg_self]
  exact toNat_packWord _ _ _ _

/-- Settles O18: outside the device ranges the routed write leaves the memory that the raw bus leaves, whose cells O7
gives. -/
theorem storeToRamCompletes : Obligations.StoreToRamCompletes := by
  unfold Obligations.StoreToRamCompletes
  rintro s reg1 reg2 imm _ hm rfl hal hl
  have hbus : busWriteWord s.ram (coreAddress (s.effectiveAddress reg2 imm)) (s.getReg reg1) =
      .ok (s.ram.writeWord (s.effectiveAddress reg2 imm).toNat (s.getReg reg1)) := by
    simp only [busWriteWord, wordAddress_coreAddress_aligned hal]
  obtain ⟨-, -, haligned⟩ := busWordAccess s.ram (coreAddress (s.effectiveAddress reg2 imm)) (s.getReg reg1) hm
  have hcore : coreAddress (s.effectiveAddress reg2 imm) = (s.effectiveAddress reg2 imm).toNat := rfl
  obtain ⟨-, m, hwrite, h0, h1, h2, h3, houtside⟩ := haligned (by omega) (by omega) (by omega)
  obtain rfl := Except.ok.inj (hwrite.symm.trans hbus)
  exact ⟨_, exec_store_of_ok (State.memWriteWord_ram hal hl), h0, h1, h2, h3, houtside, fun _ _ => rfl,
    ⟨rfl, rfl, rfl, rfl, rfl⟩, ⟨rfl, rfl, rfl, rfl, rfl⟩, rfl, rfl⟩

/-! ### Device ranges -/

/-- Settles O17: the routed read makes the four register reads and keeps the core, and LOAD writes the composed word. -/
theorem loadFromDeviceCompletes : Obligations.LoadFromDeviceCompletes := by
  unfold Obligations.LoadFromDeviceCompletes
  rintro s reg1 reg2 imm _ b rfl hal hl
  have k := s.devReadWord_kept b.device (Binding.offset b (s.effectiveAddress reg2 imm).toNat)
  obtain ⟨r0, r1, r2, r3, hword, hlog⟩ :=
    s.devReadWord_reads b.device (Binding.offset b (s.effectiveAddress reg2 imm).toNat)
  refine ⟨_, r0, r1, r2, r3, exec_load_of_ok (State.memReadWord_device hal hl), ?_, ?_, fun q0 q1 q2 q3 rest hq => ?_,
    k.sameRegsBut_setReg reg1 _, k.sameControl, k.sameMemory, k.sameWiring, k.sameTrace⟩
  · rw [State.getReg_setReg_self]
    exact (congrArg BitVec.toNat hword).trans (toNat_packWord _ _ _ _)
  · simp only [← Binding.offset_add]
    exact hlog
  · obtain ⟨hqword, hrest⟩ :=
      State.devReadWord_of_replies hq b.device (Binding.offset b (s.effectiveAddress reg2 imm).toNat)
    exact ⟨packWord_inj (hword.symm.trans hqword), hrest⟩

theorem State.memWriteWord_device {s : State} {a : Addr} {b : Binding} {v : Word} (hal : a.toNat % 4 = 0)
    (h : lookup s.mmioTable a.toNat = some b) :
    s.memWriteWord (coreAddress a) v = .ok (s.devWriteWord b.device (Binding.offset b a.toNat) v) := by
  simp only [State.memWriteWord, wordAddress_coreAddress_aligned hal, h]

/-- A device word write makes four register writes at ascending offsets, most significant byte first (decisions D5,
D6). -/
theorem State.devWriteWord_portLog (s : State) (d : DeviceId) (off : BitVec 16) (v : Word) :
    (s.devWriteWord d off v).portLog = s.portLog ++
      [.devWrite d off (byte0 v), .devWrite d (off + 1) (byte1 v), .devWrite d (off + 2) (byte2 v),
        .devWrite d (off + 3) (byte3 v)] := by
  simp [State.devWriteWord, State.devWrite]

/-- Settles O19: the routed write sends the four bytes of the register, which pack to it again, and keeps the core. -/
theorem storeToDeviceCompletes : Obligations.StoreToDeviceCompletes := by
  unfold Obligations.StoreToDeviceCompletes
  rintro s reg1 reg2 imm _ b rfl hal hl
  have k := s.devWriteWord_kept b.device (Binding.offset b (s.effectiveAddress reg2 imm).toNat) (s.getReg reg1)
  refine ⟨_, byte0 (s.getReg reg1), byte1 (s.getReg reg1), byte2 (s.getReg reg1), byte3 (s.getReg reg1),
    exec_store_of_ok (State.memWriteWord_device hal hl), ?_, ?_, rfl, rfl,
    k.sameMemory, k.sameRegs, k.sameControl, k.sameWiring, k.sameTrace⟩
  · rw [← toNat_packWord, packWord_bytes]
  · simp only [← Binding.offset_add]
    exact s.devWriteWord_portLog _ _ _

/-! ### Misaligned addresses (R114) -/

theorem State.memWriteWord_misaligned {s : State} {a : Addr} {v : Word} (hal : a.toNat % 4 ≠ 0) :
    s.memWriteWord (coreAddress a) v = .error .unalignedAccess := by
  simp only [State.memWriteWord, wordAddress_coreAddress, Config.wordBytes, if_neg hal]

/-- Settles O20: the alignment check answers before the table and before any cell, and fault entry keeps the rest. -/
theorem misalignedLoadAndStoreFault : Obligations.MisalignedLoadAndStoreFault := by
  unfold Obligations.MisalignedLoadAndStoreFault
  intro s reg1 reg2 imm hal i hi
  have hexec : exec i s = .next (s.faultEntry .unalignedAccess) := by
    rcases List.mem_pair.1 hi with rfl | rfl
    · exact exec_load_of_error (State.memReadWord_misaligned hal)
    · exact exec_store_of_error (State.memWriteWord_misaligned hal)
  exact ⟨_, hexec, rfl, rfl, rfl, rfl, rfl, fun _ _ => rfl, fun _ => rfl, ⟨rfl, rfl, rfl, rfl, rfl⟩, rfl, rfl⟩

end Sys2Proof.Machine

/-! ADD and SUB (43_arithmetic.md): each writes its result to one register, and a register write changes nothing else. -/

namespace Sys2Proof.Machine

/-- A register write changes that register alone. -/
theorem State.setReg_frame (s : State) (i : RegIdx) (v : Word) :
    SameRegsBut [i] s (s.setReg i v) ∧ SameControl s (s.setReg i v) ∧ SameMemory s (s.setReg i v) ∧
      SamePorts s (s.setReg i v) ∧ SameTrace s (s.setReg i v) :=
  ⟨(CoreKept.refl s).sameRegsBut_setReg i v, ⟨rfl, rfl, rfl, rfl, rfl⟩, fun _ => rfl, ⟨rfl, rfl, rfl, rfl, rfl⟩,
    rfl, rfl⟩

theorem exec_add (reg1 reg2 : RegIdx) (s : State) :
    exec (.add reg1 reg2) s = .next (s.setReg reg1 (s.getReg reg1 + s.getReg reg2)) := rfl

theorem exec_sub (reg1 reg2 : RegIdx) (s : State) :
    exec (.sub reg1 reg2) s = .next (s.setReg reg1 (s.getReg reg1 - s.getReg reg2)) := rfl

/-- The difference of two words, read as a number, is the difference of the numbers modulo 2^32 (R94). -/
theorem natCast_toNat_sub (x y : Word) : ((x - y).toNat : Int) = ((x.toNat : Int) - (y.toNat : Int)) % 2 ^ 32 := by
  have hy := y.isLt
  rw [BitVec.toNat_sub]
  omega

/-- Settles O22: ADD is one register write, of the sum. -/
theorem addCompletes : Obligations.AddCompletes := by
  unfold Obligations.AddCompletes
  intro s reg1 reg2
  refine ⟨_, exec_add reg1 reg2 s, ?_, s.setReg_frame reg1 _⟩
  rw [State.getReg_setReg_self, BitVec.toNat_add]

/-- Settles O23: SUB is one register write, of the difference; a word less itself is zero. -/
theorem subCompletes : Obligations.SubCompletes := by
  unfold Obligations.SubCompletes
  intro s reg1 reg2
  refine ⟨_, exec_sub reg1 reg2 s, ?_, ?_, s.setReg_frame reg1 _⟩
  · rw [State.getReg_setReg_self, natCast_toNat_sub]
  · rintro rfl
    rw [State.getReg_setReg_self, BitVec.sub_self]

end Sys2Proof.Machine

/-! SYSCALL and HALT (44_system.md): the syscall number, one invocation of the connected handler by what it comes to,
and what the handler's calls can put on the ports. -/

namespace Sys2Proof.Machine

/-! ### The syscall number (R100) -/

theorem State.toNat_syscallNumber (s : State) : s.syscallNumber.toNat = (s.getReg 0).toNat % 256 := by
  simp [State.syscallNumber]

/-- Settles O26: the truncation of `R0` to a byte is its value modulo 256, and a byte is known by its value. -/
theorem syscallNumberIsTheLowByteOfRegisterZero : Obligations.SyscallNumberIsTheLowByteOfRegisterZero := by
  unfold Obligations.SyscallNumberIsTheLowByteOfRegisterZero
  refine fun s u => ⟨s.toNat_syscallNumber, fun h => BitVec.eq_of_toNat_eq ?_⟩
  rw [s.toNat_syscallNumber, u.toNat_syscallNumber, h]

/-! ### The ports under direct calls

A handler's calls reach the device ports (20_memory.md R35) and never the syscall port. -/

/-- What the ports carried from `s` to `t` is device transactions alone. -/
def OnlyDeviceEvents (s t : State) : Prop :=
  ∃ after : List PortEvent, t.portLog = s.portLog ++ after ∧ ∀ e ∈ after, ∀ h n, e ≠ .syscall h n

theorem OnlyDeviceEvents.of_portLog_eq {s t : State} (h : t.portLog = s.portLog) : OnlyDeviceEvents s t :=
  ⟨[], by rw [h, List.append_nil], fun _ he => absurd he List.not_mem_nil⟩

theorem OnlyDeviceEvents.trans {s t u : State} (h : OnlyDeviceEvents s t) (k : OnlyDeviceEvents t u) :
    OnlyDeviceEvents s u := by
  obtain ⟨as, has, hdev⟩ := h
  obtain ⟨bs, hbs, hdev'⟩ := k
  exact ⟨as ++ bs, by rw [hbs, has, List.append_assoc],
    fun e he => (List.mem_append.1 he).elim (hdev e) (hdev' e)⟩

theorem State.devRead_onlyDeviceEvents (s : State) (d : DeviceId) (off : BitVec 16) :
    OnlyDeviceEvents s (s.devRead d off).2 :=
  ⟨_, s.devRead_portLog d off, by simp⟩

theorem State.devWrite_onlyDeviceEvents (s : State) (d : DeviceId) (off : BitVec 16) (v : Byte) :
    OnlyDeviceEvents s (s.devWrite d off v) :=
  ⟨_, s.emitPort_portLog _, by simp⟩

theorem State.devReadWord_onlyDeviceEvents (s : State) (d : DeviceId) (off : BitVec 16) :
    OnlyDeviceEvents s (s.devReadWord d off).2 := by
  obtain ⟨r0, r1, r2, r3, -, hlog⟩ := s.devReadWord_reads d off
  exact ⟨_, hlog, by simp⟩

theorem State.devWriteWord_onlyDeviceEvents (s : State) (d : DeviceId) (off : BitVec 16) (v : Word) :
    OnlyDeviceEvents s (s.devWriteWord d off v) :=
  ⟨_, s.devWriteWord_portLog d off v, by simp⟩

section
variable {s t : State} {addr : Int}

theorem State.memReadByte_onlyDeviceEvents {v : Byte} (h : s.memReadByte addr = .ok (v, t)) : OnlyDeviceEvents s t := by
  unfold State.memReadByte at h
  split at h
  · cases h
  · split at h
    · obtain rfl : (s.devRead _ _).2 = t := congrArg Prod.snd (Except.ok.inj h)
      exact s.devRead_onlyDeviceEvents _ _
    · cases h; exact .of_portLog_eq rfl

theorem State.memReadWord_onlyDeviceEvents {v : Word} (h : s.memReadWord addr = .ok (v, t)) : OnlyDeviceEvents s t := by
  unfold State.memReadWord at h
  split at h
  · cases h
  · split at h
    · obtain rfl : (s.devReadWord _ _).2 = t := congrArg Prod.snd (Except.ok.inj h)
      exact s.devReadWord_onlyDeviceEvents _ _
    · cases h; exact .of_portLog_eq rfl

theorem State.memWriteByte_onlyDeviceEvents {v : Byte} (h : s.memWriteByte addr v = .ok t) : OnlyDeviceEvents s t := by
  unfold State.memWriteByte at h
  split at h
  · cases h
  · split at h
    · cases h; exact s.devWrite_onlyDeviceEvents _ _ _
    · cases h; exact .of_portLog_eq rfl

theorem State.memWriteWord_onlyDeviceEvents {v : Word} (h : s.memWriteWord addr v = .ok t) : OnlyDeviceEvents s t := by
  unfold State.memWriteWord at h
  split at h
  · cases h
  · split at h
    · cases h; exact s.devWriteWord_onlyDeviceEvents _ _ _
    · cases h; exact .of_portLog_eq rfl

end

theorem State.directCall_onlyDeviceEvents {s : State} {c : DirectCall} {r : CallResult × State}
    (h : s.directCall c = .ok r) : OnlyDeviceEvents s r.2 := by
  cases c with
  | memReadByte addr => obtain ⟨_, hr, rfl⟩ := exceptMap_ok h; exact State.memReadByte_onlyDeviceEvents hr
  | memReadWord addr => obtain ⟨_, hr, rfl⟩ := exceptMap_ok h; exact State.memReadWord_onlyDeviceEvents hr
  | memWriteByte addr v => obtain ⟨_, ht, rfl⟩ := exceptMap_ok h; exact State.memWriteByte_onlyDeviceEvents ht
  | memWriteWord addr v => obtain ⟨_, ht, rfl⟩ := exceptMap_ok h; exact State.memWriteWord_onlyDeviceEvents ht
  | get _ | set _ _ | busReadByte _ | busWriteByte _ _ | busReadWord _ | busWriteWord _ _ | busLoadBulk _ _
  | dumpMemory _ _ => obtain ⟨_, -, rfl⟩ := exceptMap_ok h; exact .of_portLog_eq rfl

theorem State.afterCall_onlyDeviceEvents (s : State) (c : DirectCall) : OnlyDeviceEvents s (s.afterCall c) := by
  unfold State.afterCall
  split
  · exact State.directCall_onlyDeviceEvents ‹_›
  · exact .of_portLog_eq rfl

theorem State.performCalls_onlyDeviceEvents (s : State) (cs : List DirectCall) :
    OnlyDeviceEvents s (s.performCalls cs) := by
  induction cs generalizing s with
  | nil => exact .of_portLog_eq rfl
  | cons c cs ih => exact (s.afterCall_onlyDeviceEvents c).trans (ih _)

/-! ### The handler's scope (R102) -/

theorem State.afterCall_handlerReplies (s : State) (c : DirectCall) :
    (s.afterCall c).handlerReplies = s.handlerReplies := by
  unfold State.afterCall
  split
  · exact (State.directCall_keeps ‹_›).2.1
  · rfl

theorem State.performCalls_handlerReplies (s : State) (cs : List DirectCall) :
    (s.performCalls cs).handlerReplies = s.handlerReplies := by
  induction cs generalizing s with
  | nil => rfl
  | cons c cs ih => exact (ih _).trans (s.afterCall_handlerReplies c)

/-- Settles O27: what each call keeps, the whole list keeps, by induction on the calls. -/
theorem handlerStaysInItsScope : Obligations.HandlerStaysInItsScope := by
  unfold Obligations.HandlerStaysInItsScope
  intro s calls
  obtain ⟨k, hram⟩ := s.performCalls_keeps calls
  exact ⟨k.sameControl, k.sameTrace, k.mmioTable, s.performCalls_handlerReplies calls, hram⟩

/-! ### SYSCALL by what its handler comes to (R98, R101, R103) -/

/-- The event of the invocation and the draw of the reply touch different fields. -/
theorem State.nextHandlerReply_emitPort (s : State) (e : PortEvent) :
    (s.emitPort e).nextHandlerReply =
      (s.nextHandlerReply.1, { s.nextHandlerReply.2 with portLog := s.portLog ++ [e] }) := by
  unfold State.nextHandlerReply
  rw [State.emitPort_handlerReplies]
  split <;> rfl

section
variable {s : State} {h : HandlerId} {n : Byte} {calls : List DirectCall}

theorem State.invokeHandler_of_returns (hr : s.nextHandlerReply.1 = .returns calls) :
    s.invokeHandler h n = .next
      (({ s.nextHandlerReply.2 with portLog := s.portLog ++ [.syscall h n] } : State).performCalls calls) := by
  simp only [State.invokeHandler, State.nextHandlerReply_emitPort, hr]

theorem State.invokeHandler_of_neverReturns (hr : s.nextHandlerReply.1 = .neverReturns) :
    s.invokeHandler h n = .fault .handlerNeverReturns := by
  simp only [State.invokeHandler, State.nextHandlerReply_emitPort, hr]

theorem exec_syscall_of_no_handler (hh : s.handler = none) :
    exec .syscall s = .next (s.emitTrace (.syscallUnhandled s.syscallNumber)) := by
  simp only [exec, execSyscall, hh]

theorem exec_syscall_of_handler (hh : s.handler = some h) :
    exec .syscall s = s.invokeHandler h s.syscallNumber := by
  simp only [exec, execSyscall, hh]

end

/-- Settles O25: the invocation's event comes before the calls, and the calls put device transactions alone on the
ports, so the event is the only one of its kind. -/
theorem syscallInvokesTheHandlerOnce : Obligations.SyscallInvokesTheHandlerOnce := by
  unfold Obligations.SyscallInvokesTheHandlerOnce
  intro s h calls hh hr
  have hexec := (exec_syscall_of_handler hh).trans (State.invokeHandler_of_returns hr)
  obtain ⟨after, hlog, hdev⟩ := State.performCalls_onlyDeviceEvents
    { s.nextHandlerReply.2 with portLog := s.portLog ++ [.syscall h s.syscallNumber] } calls
  have kdraw : ControlKept s { s.nextHandlerReply.2 with portLog := s.portLog ++ [.syscall h s.syscallNumber] } := by
    obtain ⟨k, -⟩ := s.nextHandlerReply_keeps
    exact ⟨k.pc, k.halted, k.running, k.lastFault, k.handler, k.mmioTable, k.traceAttached, k.traceLog⟩
  refine ⟨_, s.syscallNumber, after, hexec, s.toNat_syscallNumber, rfl, ?_, hdev,
    (kdraw.trans (State.performCalls_keeps _ calls).1).sameTrace⟩
  rw [hlog, List.append_assoc, List.singleton_append]

/-- Settles O28: with no handler, and with one that returns, SYSCALL has a next state; with one that never returns it
has none. -/
theorem syscallStopsOnlyWhenTheHandlerNeverReturns : Obligations.SyscallStopsOnlyWhenTheHandlerNeverReturns := by
  unfold Obligations.SyscallStopsOnlyWhenTheHandlerNeverReturns
  intro s
  cases hh : s.handler with
  | none => simp [exec_syscall_of_no_handler hh]
  | some h =>
    cases hr : s.nextHandlerReply.1 with
    | returns calls => simp [exec_syscall_of_handler hh, State.invokeHandler_of_returns hr]
    | neverReturns => simp [exec_syscall_of_handler hh, State.invokeHandler_of_neverReturns hr]

/-- A trace event changes nothing of the core and nothing of the other ports (40_execution_cycle.md R85). -/
theorem State.emitTrace_coreFrame (s : State) (e : TraceEvent) :
    SameRegsBut [] s (s.emitTrace e) ∧ SameControl s (s.emitTrace e) ∧ SameMemory s (s.emitTrace e) ∧
      SamePorts s (s.emitTrace e) := by
  simp [SameRegsBut, SameControl, SameMemory, SamePorts]

/-- Settles O24: SYSCALL with no handler is the diagnostic on the trace port and nothing else. -/
theorem syscallWithoutHandlerCompletes : Obligations.SyscallWithoutHandlerCompletes := by
  unfold Obligations.SyscallWithoutHandlerCompletes
  intro s hh
  obtain ⟨hregs, hcontrol, hmemory, hports⟩ := s.emitTrace_coreFrame (.syscallUnhandled s.syscallNumber)
  exact ⟨_, exec_syscall_of_no_handler hh, hregs, hcontrol, hmemory, hports, s.emitTrace_traceAttached _,
    s.syscallNumber, s.toNat_syscallNumber, s.emitTrace_traceLog _⟩

/-! ### HALT (R99) -/

theorem exec_halt (s : State) : exec .halt s = .next s.setHalted := rfl

/-- Opcode `0xFF` is HALT, whatever the other fields of the word hold (30_encoding.md R71, decision D3). -/
theorem decodeWord_halt {w : Word} (h : w.toNat / 2 ^ 24 = 0xFF) : decodeWord w = .ok .halt := by
  have hopcode : (fieldsOf w).opcode = 0xFF#8 := fieldsOf_opcode_of_toNat h
  simp [decodeWord, decodeFields, hopcode]

/-- A fetched HALT ends its step halted, so `pc` does not advance (40_execution_cycle.md R79). -/
theorem step_of_fetches_halt {s u : State} {w : Word} (h : Fetches s w u) (hd : decodeWord w = .ok .halt) :
    step s = .next (u.emitTrace (.decoded s.pc w (fieldsOf w))).setHalted := by
  rw [step_of_fetches_ok h hd, exec_halt]
  rfl

/-- Settles O29: HALT sets the two flags alone, and the fetch and the trace event before it keep the core. -/
theorem haltCompletes : Obligations.HaltCompletes := by
  unfold Obligations.HaltCompletes
  refine ⟨fun s => ?_, fun w s u hopcode h => ?_⟩
  · exact ⟨_, exec_halt s, rfl, rfl, rfl, rfl, rfl, fun _ _ => rfl, fun _ => rfl, ⟨rfl, rfl, rfl, rfl, rfl⟩, rfl, rfl⟩
  · have k := h.coreKept
    refine ⟨_, step_of_fetches_halt h (decodeWord_halt hopcode), rfl, rfl, ?_, ?_, fun r hr => ?_, fun a => ?_⟩
    · simpa using k.lastFault
    · simpa using k.pc
    · simpa using k.sameRegs r hr
    · simpa using k.sameMemory a

end Sys2Proof.Machine

/-! Control transfer: the moves of the host that can change `pc` (45_control_transfer.md R106). -/

namespace Sys2Proof.Machine

/-- A direct `execute`, a direct call and every other move leave `pc`; the five operations excepted are a step, a run,
reset, `set_pc` and `load_program`. -/
theorem HostMove.keepsPc {op : HostOp} {s t : State} (h : HostMove s op t) (hstep : op ≠ .step)
    (hrun : ∀ maxSteps, op ≠ .run maxSteps) (hreset : op ≠ .reset) (hset : ∀ address, op ≠ .setPc address)
    (hload : ∀ bytes start, op ≠ .loadProgram bytes start) : t.pc = s.pc := by
  cases h with
  | step _ => exact absurd rfl hstep
  | run _ => exact absurd rfl (hrun _)
  | reset => exact absurd rfl hreset
  | pcSet _ _ | pcRejected _ => exact absurd rfl (hset _)
  | loaded _ | notLoaded _ => exact absurd rfl (hload _ _)
  | execute _ h => exact (executeWord_frame h).pc
  | call c => exact (s.afterCall_keeps c).1.pc
  | clearMemory | getPc | getState | setSyscallHandler _ | attachTrace _ => rfl

/-- Settles O45, by the frame of an instruction and the moves of a host operation. -/
theorem pcChangesOnlyWhereTheRulesSay : Obligations.PcChangesOnlyWhereTheRulesSay := by
  unfold Obligations.PcChangesOnlyWhereTheRulesSay
  exact ⟨fun _ _ _ h => (exec_frame h).pc, fun _ _ _ h => (hostApply_cases h).2.keepsPc⟩

end Sys2Proof.Machine

/-! Exceptions (60_exceptions.md): how a step ends, which faults it takes and from what cause, what a fault leaves
alone, and how a run ends. -/

namespace Sys2Proof.Machine

/-! ### The invariant (R125) -/

/-- Settles O40, by the moves of a step: what a fetch and an instruction do, fault entry and the advance of `pc`. -/
theorem stepKeepsTheInvariant : Obligations.StepKeepsTheInvariant := by
  unfold Obligations.StepKeepsTheInvariant
  exact fun _ _ hs h => step_keepsCoreInv hs h

/-- Settles O39: creation sets no flag, retains no fault and lists no cell, so the wiring decides. -/
theorem invariantHoldsAtReset : Obligations.InvariantHoldsAtReset := by
  unfold Obligations.InvariantHoldsAtReset
  exact fun _ h => coreInv_created h

/-! ### The one fault an instruction can take (R119) -/

/-- The instruction is a LOAD or STORE whose effective address is not a multiple of 4 (R114). -/
def MisalignedAccess (i : Instr) (s : State) : Prop :=
  ∃ (reg1 reg2 : RegIdx) (imm : Imm), (i = .load reg1 reg2 imm ∨ i = .store reg1 reg2 imm) ∧
    (s.effectiveAddress reg2 imm).toNat % 4 ≠ 0

theorem exec_of_misaligned {i : Instr} {s : State} (h : MisalignedAccess i s) :
    exec i s = .next (s.faultEntry .unalignedAccess) := by
  obtain ⟨reg1, reg2, imm, rfl | rfl, hal⟩ := h
  · exact exec_load_of_error (State.memReadWord_misaligned hal)
  · exact exec_store_of_error (State.memWriteWord_misaligned hal)

/-- A routed word read at an address of the core fails the alignment check or completes (20_memory.md R47, R53). -/
theorem State.misaligned_of_memReadWord_error {s : State} {a : Addr} {f : FaultKind}
    (h : s.memReadWord (coreAddress a) = .error f) : a.toNat % 4 ≠ 0 := by
  intro hal
  cases hl : lookup s.mmioTable a.toNat with
  | none => cases (State.memReadWord_ram hal hl).symm.trans h
  | some b => cases (State.memReadWord_device hal hl).symm.trans h

theorem State.misaligned_of_memWriteWord_error {s : State} {a : Addr} {v : Word} {f : FaultKind}
    (h : s.memWriteWord (coreAddress a) v = .error f) : a.toNat % 4 ≠ 0 := by
  intro hal
  cases hl : lookup s.mmioTable a.toNat with
  | none => cases (State.memWriteWord_ram hal hl).symm.trans h
  | some b => cases (State.memWriteWord_device hal hl).symm.trans h

/-- An instruction is HALT, or a misaligned access, or it leaves `halted` and the retained fault alone. -/
theorem exec_halt_or_misaligned_or_keeps {i : Instr} {s t : State} (h : exec i s = .next t) :
    i = .halt ∨ MisalignedAccess i s ∨ (t.halted = s.halted ∧ t.lastFault = s.lastFault) := by
  have completes {u : State} (k : ControlKept s u) : u.halted = s.halted ∧ u.lastFault = s.lastFault :=
    ⟨k.halted, k.lastFault⟩
  cases i with
  | nop => cases h; exact .inr (.inr (completes (.refl s)))
  | load reg1 reg2 imm =>
    rcases execLoad_cases reg1 reg2 imm s with ⟨f, hf, -⟩ | ⟨v, u, -, hu, e⟩
    · exact .inr (.inl ⟨reg1, reg2, imm, .inl rfl, State.misaligned_of_memReadWord_error hf⟩)
    · cases e.symm.trans h; exact .inr (.inr ⟨hu.halted, hu.lastFault⟩)
  | store reg1 reg2 imm =>
    rcases execStore_cases reg1 reg2 imm s with ⟨f, hf, -⟩ | ⟨u, hu, e⟩
    · exact .inr (.inl ⟨reg1, reg2, imm, .inr rfl, State.misaligned_of_memWriteWord_error hf⟩)
    · cases e.symm.trans h; exact .inr (.inr (completes (State.memWriteWord_keeps hu).1))
  | add reg1 reg2 => cases h; exact .inr (.inr ⟨rfl, rfl⟩)
  | sub reg1 reg2 => cases h; exact .inr (.inr ⟨rfl, rfl⟩)
  | syscall =>
    rcases execSyscall_cases s with ⟨-, e⟩ | ⟨handler, -, e⟩
    · cases e.symm.trans h; exact .inr (.inr ⟨s.emitTrace_halted _, s.emitTrace_lastFault _⟩)
    · exact .inr (.inr (completes (State.invokeHandler_next (e.symm.trans h)).1))
  | halt => exact .inl rfl

/-! ### The state on which a fetched word is executed -/

/-- The registers, RAM, `pc` and the handler slot are as they were: what a fault leaves alone (R123). -/
structure FaultFrame (s t : State) : Prop where
  regs : t.regs = s.regs
  ram : t.ram = s.ram
  pc : t.pc = s.pc
  handler : t.handler = s.handler

theorem FaultFrame.effectiveAddress_eq {s t : State} (h : FaultFrame s t) (reg2 : RegIdx) (imm : Imm) :
    t.effectiveAddress reg2 imm = s.effectiveAddress reg2 imm := by
  simp only [State.effectiveAddress, State.getReg, h.regs]

theorem FaultFrame.misalignedAccess_iff {s t : State} (h : FaultFrame s t) (i : Instr) :
    MisalignedAccess i t ↔ MisalignedAccess i s := by
  simp only [MisalignedAccess, h.effectiveAddress_eq]

/-- The fetch and the trace event before an instruction keep all that a fault keeps. -/
theorem CoreKept.faultFrame_emitTrace {s u : State} (k : CoreKept s u) (e : TraceEvent) :
    FaultFrame s (u.emitTrace e) :=
  ⟨(u.emitTrace_regs e).trans k.regs, (u.emitTrace_ram e).trans k.ram, (u.emitTrace_pc e).trans k.pc,
    (u.emitTrace_handler e).trans k.handler⟩

/-! ### What a step makes of each cause (R119, R121, R122) -/

/-- The causes of a fault, with the two memory instructions taken together. -/
theorem faultsWith_iff {s : State} {f : FaultKind} :
    FaultsWith s f ↔ (f = .unalignedAccess ∧ s.pc.toNat % 4 ≠ 0) ∨
      ∃ (w : Word) (u : State), s.fetch = .ok (w, u) ∧
        ((f = .unalignedAccess ∧ ∃ i, decodeWord w = .ok i ∧ MisalignedAccess i s) ∨
          (f = .unknownOpcode ∧ ∃ e, decodeWord w = .error e)) := by
  have access (w : Word) :
      (∃ i, decodeWord w = .ok i ∧ MisalignedAccess i s) ↔
        ∃ (reg1 reg2 : RegIdx) (imm : Imm),
          (decodeWord w = .ok (.load reg1 reg2 imm) ∨ decodeWord w = .ok (.store reg1 reg2 imm)) ∧
          (s.effectiveAddress reg2 imm).toNat % Config.wordBytes ≠ 0 := by
    constructor
    · rintro ⟨i, hd, reg1, reg2, imm, rfl | rfl, hal⟩
      · exact ⟨reg1, reg2, imm, .inl hd, hal⟩
      · exact ⟨reg1, reg2, imm, .inr hd, hal⟩
    · rintro ⟨reg1, reg2, imm, hd | hd, hal⟩
      · exact ⟨_, hd, reg1, reg2, imm, .inl rfl, hal⟩
      · exact ⟨_, hd, reg1, reg2, imm, .inr rfl, hal⟩
  simp only [access]
  rfl

/-- A cause of a fault makes the step that fault's entry, on a state that keeps all that R123 names. -/
theorem FaultsWith.step_eq {s : State} {f : FaultKind} (h : FaultsWith s f) (ht : tableWellFormed s.mmioTable = true)
    (hs : s.halted = false) : ∃ v, FaultFrame s v ∧ step s = .next (v.faultEntry f) := by
  rcases faultsWith_iff.1 h with ⟨rfl, hal⟩ | ⟨w, u, hf, ⟨rfl, i, hd, hmis⟩ | ⟨rfl, e, hd⟩⟩
  · exact ⟨s, ⟨rfl, rfl, rfl, rfl⟩, step_of_fetch_error ht hs (State.memReadWord_misaligned hal)⟩
  · have hfetches : Fetches s w u := ⟨ht, hs, hf⟩
    have hframe := hfetches.coreKept.faultFrame_emitTrace (.decoded s.pc w (fieldsOf w))
    refine ⟨_, hframe, ?_⟩
    rw [step_of_fetches_ok hfetches hd, exec_of_misaligned ((hframe.misalignedAccess_iff i).2 hmis)]
    rfl
  · have hfetches : Fetches s w u := ⟨ht, hs, hf⟩
    exact ⟨_, hfetches.coreKept.faultFrame_emitTrace _, step_of_fetches_error hfetches hd⟩

/-- A HALT makes the step a clean end: the retained fault is what it was (44_system.md R99). -/
theorem AtHalt.step_eq {s : State} (h : AtHalt s) (ht : tableWellFormed s.mmioTable = true) (hs : s.halted = false) :
    ∃ v : State, v.lastFault = s.lastFault ∧ step s = .next v.setHalted := by
  obtain ⟨w, u, hf, hd⟩ := h
  have hfetches : Fetches s w u := ⟨ht, hs, hf⟩
  exact ⟨_, (State.emitTrace_lastFault _ _).trans hfetches.coreKept.lastFault, step_of_fetches_halt hfetches hd⟩

/-- The three ends of a step of a running core: a HALT, a cause of a fault, or a core that goes on with no fault
taken. -/
theorem step_halt_or_fault_or_runs {s t : State} (hs : s.halted = false) (h : step s = .next t) :
    AtHalt s ∨ (∃ f, FaultsWith s f) ∨ (t.halted = false ∧ t.lastFault = s.lastFault) := by
  rcases (step_cases h).2 with ⟨hh, -⟩ | ⟨-, f, hf, -⟩ | ⟨-, w, u, hf, hu, v, hv, rfl⟩
  · simp [hs] at hh
  · exact .inr (.inl ⟨_, faultsWith_iff.2 (.inl ⟨rfl, State.misaligned_of_memReadWord_error hf⟩)⟩)
  · cases hd : decodeWord w with
    | error e => exact .inr (.inl ⟨_, faultsWith_iff.2 (.inr ⟨w, u, hf, .inr ⟨rfl, e, hd⟩⟩)⟩)
    | ok i =>
      rw [executeWord_of_ok hd] at hv
      rcases exec_halt_or_misaligned_or_keeps hv with rfl | hmis | ⟨hhalted, hfault⟩
      · exact .inl ⟨w, u, hf, hd⟩
      · have hmis' := ((hu.faultFrame_emitTrace _).misalignedAccess_iff i).1 hmis
        exact .inr (.inl ⟨_, faultsWith_iff.2 (.inr ⟨w, u, hf, .inl ⟨rfl, i, hd, hmis'⟩⟩)⟩)
      · have hv_halted : v.halted = false := by rw [hhalted, State.emitTrace_halted, hu.halted, hs]
        have hv_fault : v.lastFault = s.lastFault := by rw [hfault, State.emitTrace_lastFault, hu.lastFault]
        rw [if_neg (by simp [hv_halted])]
        exact .inr (.inr ⟨hv_halted, hv_fault⟩)

/-! ### The end of a step read off the state it leaves (R126) -/

section
variable {s t : State} {f : FaultKind}

theorem FaultsWith.ends (h : FaultsWith s f) (hs : s.halted = false) (hstep : step s = .next t) :
    FaultFrame s t ∧ EndedByFault t f := by
  obtain ⟨v, hframe, e⟩ := h.step_eq (step_cases hstep).1 hs
  cases e.symm.trans hstep
  exact ⟨⟨hframe.regs, hframe.ram, hframe.pc, hframe.handler⟩, rfl, rfl⟩

theorem AtHalt.ends (h : AtHalt s) (hs : s.halted = false) (hnone : s.lastFault = none) (hstep : step s = .next t) :
    EndedCleanly t := by
  obtain ⟨v, hv, e⟩ := h.step_eq (step_cases hstep).1 hs
  cases e.symm.trans hstep
  exact ⟨rfl, hv.trans hnone⟩

/-- What a step leaves of a core without a retained fault: a clean end at a HALT, the end by the fault raised, or a
core that runs on without one. -/
theorem step_ends (hs : s.halted = false) (hnone : s.lastFault = none) (hstep : step s = .next t) :
    (AtHalt s ∧ EndedCleanly t) ∨ (∃ f, FaultsWith s f ∧ EndedByFault t f) ∨
      (t.halted = false ∧ t.lastFault = none) := by
  rcases step_halt_or_fault_or_runs hs hstep with h | ⟨f, h⟩ | ⟨hrun, hfault⟩
  · exact .inl ⟨h, h.ends hs hnone hstep⟩
  · exact .inr (.inl ⟨f, h, (h.ends hs hstep).2⟩)
  · exact .inr (.inr ⟨hrun, hfault.trans hnone⟩)

/-- A retained fault after the step is the fault that the step raised. -/
theorem faultsWith_of_lastFault (hs : s.halted = false) (hnone : s.lastFault = none) (hstep : step s = .next t)
    (hf : t.lastFault = some f) : FaultsWith s f := by
  rcases step_ends hs hnone hstep with ⟨-, -, hclean⟩ | ⟨g, hg, -, hlast⟩ | ⟨-, hnone'⟩
  · cases hclean.symm.trans hf
  · cases hlast.symm.trans hf; exact hg
  · cases hnone'.symm.trans hf

theorem endedCleanly_iff_atHalt (hs : s.halted = false) (hnone : s.lastFault = none) (hstep : step s = .next t) :
    EndedCleanly t ↔ AtHalt s := by
  refine ⟨fun ⟨hhalted, hclean⟩ => ?_, fun h => h.ends hs hnone hstep⟩
  rcases step_ends hs hnone hstep with ⟨h, -⟩ | ⟨f, -, -, hlast⟩ | ⟨hrun, -⟩
  · exact h
  · cases hclean.symm.trans hlast
  · cases hrun.symm.trans hhalted

theorem endedByFault_iff_faultsWith (hs : s.halted = false) (hnone : s.lastFault = none) (hstep : step s = .next t) :
    EndedByFault t f ↔ FaultsWith s f :=
  ⟨fun ⟨_, hf⟩ => faultsWith_of_lastFault hs hnone hstep hf, fun h => (h.ends hs hstep).2⟩

/-- A running core has no retained fault: every step keeps this, a step of a halted core being none. -/
theorem step_keepsFaultFreeRunning (hs : s.halted = false → s.lastFault = none) (hstep : step s = .next t) :
    t.halted = false → t.lastFault = none := by
  intro hrun
  cases hh : s.halted with
  | true =>
    cases (step_of_halted (step_cases hstep).1 hh).symm.trans hstep
    exact hs hrun
  | false =>
    rcases step_ends hh (hs hh) hstep with ⟨-, hhalted, -⟩ | ⟨f, -, hhalted, -⟩ | ⟨-, hnone⟩
    · cases hrun.symm.trans hhalted
    · cases hrun.symm.trans hhalted
    · exact hnone

end

/-! ### Runs of the machine behind the host's interface -/

/-- What every step keeps, a run of any length keeps. -/
theorem core_run_induction {M : Host.Core} {P : M.State → Prop}
    (hstep : ∀ s t : M.State, P s → M.step s = .next t → P t) {k : Nat} {s t : M.State} (hs : P s)
    (h : M.run k s = .next t) : P t := by
  induction k generalizing s with
  | zero => cases h; exact hs
  | succ k ih =>
    unfold Host.Core.run at h
    split at h
    · exact ih (hstep _ _ hs ‹_›) h
    · cases h
    · cases h

/-- The last of `k + 1` steps is the step of the state that `k` steps lead to. -/
theorem core_run_last {M : Host.Core} {k : Nat} {s v : M.State} (h : M.run k s = .next v) :
    M.run (k + 1) s = M.step v := by
  induction k generalizing s with
  | zero =>
    cases h
    cases hstep : M.step v <;> simp only [Host.Core.run, hstep]
  | succ k ih =>
    unfold Host.Core.run at h
    split at h
    · rename_i u hu
      rw [core_run_succ hu]
      exact ih h
    · cases h
    · cases h

/-- Steps within a budget from a running core to a halted one have a last step, made on a running core. -/
theorem StepsWithin.last_step {budget n : Nat} {s t : State} (h : StepsWithin budget n s t) (hs : s.halted = false)
    (ht : t.halted = true) :
    ∃ k v, n = k + 1 ∧ Sys2Proof.core.run k s = .next v ∧ v.halted = false ∧ step v = .next t := by
  cases n with
  | zero =>
    cases h.leads
    cases hs.symm.trans ht
  | succ k =>
    obtain ⟨v, hv, hv_halted⟩ := h.made_unhalted k (Nat.lt_succ_self k)
    exact ⟨k, v, rfl, hv, hv_halted, (core_run_last hv).symm.trans h.leads⟩

/-- A run from a running core without a retained fault leads to no running core with one. -/
theorem core_run_keepsFaultFreeRunning {k : Nat} {s t : State} (hnone : s.lastFault = none)
    (h : Sys2Proof.core.run k s = .next t) : t.halted = false → t.lastFault = none :=
  core_run_induction (M := Sys2Proof.core) (P := fun x : State => x.halted = false → x.lastFault = none)
    (s := s) (fun _ _ => step_keepsFaultFreeRunning) (fun _ => hnone) h

/-- Steps that halt the core did so at the last of them, by a HALT or by one fault, and none was retained before. -/
theorem StepsWithin.last_step_ends {budget n : Nat} {s t : State} (h : StepsWithin budget n s t)
    (hs : s.halted = false) (hnone : s.lastFault = none) (ht : t.halted = true) :
    ∃ k v, n = k + 1 ∧ Sys2Proof.core.run k s = .next v ∧ v.halted = false ∧ v.lastFault = none ∧
      ((EndedCleanly t ∧ AtHalt v) ∨ ∃ f, EndedByFault t f ∧ FaultsWith v f) := by
  obtain ⟨k, v, rfl, hv, hv_halted, hstep⟩ := h.last_step hs ht
  have hv_none := core_run_keepsFaultFreeRunning hnone hv hv_halted
  refine ⟨k, v, rfl, hv, hv_halted, hv_none, ?_⟩
  rcases step_ends hv_halted hv_none hstep with ⟨hcause, hend⟩ | ⟨f, hcause, hend⟩ | ⟨hrun, -⟩
  · exact .inl ⟨hend, hcause⟩
  · exact .inr ⟨f, hend, hcause⟩
  · cases hrun.symm.trans ht

/-! ### The obligations about the ends of a step and of a run -/

/-- Settles O42: a step by its three ends; a run by its last step, up to which no running core retains a fault. -/
theorem endsAreHaltsOrSingleFaults : Obligations.EndsAreHaltsOrSingleFaults := by
  unfold Obligations.EndsAreHaltsOrSingleFaults
  refine ⟨fun s t hs hnone hstep => ⟨endedCleanly_iff_atHalt hs hnone hstep,
    fun f => endedByFault_iff_faultsWith hs hnone hstep, fun hhalted => ?_,
    step_keepsFaultFreeRunning (fun _ => hnone) hstep⟩, fun s t maxSteps n hs hnone hrun => ?_⟩
  · rcases step_ends hs hnone hstep with ⟨hcause, -⟩ | ⟨f, hcause, -⟩ | ⟨hrun, -⟩
    · exact .inl hcause
    · exact .inr ⟨f, hcause⟩
    · cases hrun.symm.trans hhalted
  · obtain ⟨u, hloop, rfl⟩ := State.run_next hrun
    obtain ⟨k, hn, hk⟩ := runLoop_stepsWithin hloop
    obtain rfl : n = k := by omega
    refine ⟨fun hu : u.halted = false => ⟨?_, ?_, ?_⟩, hk.last_step_ends hs hnone⟩
    · have hbudget : ¬ n < maxSteps := fun hlt => by cases hu.symm.trans (hk.halted_of_early hlt)
      exact le_antisymm hk.within (not_lt.1 hbudget)
    · exact core_run_keepsFaultFreeRunning (s := { s with running := true }) (t := u) hnone hk.leads hu
    · simp [State.runState, hu]

/-- Settles O35: the retained fault has its cause, and fault entry keeps what the fetch and the trace event kept. -/
theorem faultsArePrecise : Obligations.FaultsArePrecise := by
  unfold Obligations.FaultsArePrecise
  intro s t f hs hnone hstep hf
  obtain ⟨hframe, hhalted, -⟩ := (faultsWith_of_lastFault hs hnone hstep hf).ends hs hstep
  exact ⟨hhalted, fun r _ => by simp only [State.getReg, hframe.regs], hframe.ram, hframe.pc, hframe.handler⟩

/-- Settles O36: the retained fault has its cause, and the causes name two faults. -/
theorem stepTakesTwoFaultsOnly : Obligations.StepTakesTwoFaultsOnly := by
  unfold Obligations.StepTakesTwoFaultsOnly
  intro s t f hs hnone hstep hf
  rcases faultsWith_of_lastFault hs hnone hstep hf with
    ⟨rfl, hal⟩ | ⟨w, u, hfetch, ⟨rfl, reg1, reg2, imm, hd, hal⟩ | ⟨rfl, e, hd⟩⟩
  · exact .inl ⟨rfl, .inl hal⟩
  · exact .inl ⟨rfl, .inr ⟨w, u, reg1, reg2, imm, hfetch, hd, hal⟩⟩
  · exact .inr ⟨rfl, w, u, e, hfetch, hd⟩

/-! ### Every step answers (R127) -/

/-- A next state, or the stop of a connected handler that never returns (93_implementation_defined.md section 2). -/
def Answers (s : State) (o : Host.Outcome State Fault Refusal) : Prop :=
  (∃ t, o = .next t) ∨ (s.handler ≠ none ∧ o = .fault .handlerNeverReturns)

theorem exec_answers (i : Instr) (s : State) : Answers s (exec i s) := by
  cases i with
  | nop | add _ _ | sub _ _ | halt => exact .inl ⟨_, rfl⟩
  | load reg1 reg2 imm =>
    rcases execLoad_cases reg1 reg2 imm s with ⟨f, -, e⟩ | ⟨v, u, -, -, e⟩
    · exact .inl ⟨_, e⟩
    · exact .inl ⟨_, e⟩
  | store reg1 reg2 imm =>
    rcases execStore_cases reg1 reg2 imm s with ⟨f, -, e⟩ | ⟨u, -, e⟩
    · exact .inl ⟨_, e⟩
    · exact .inl ⟨_, e⟩
  | syscall =>
    obtain ⟨hstop, hends⟩ := syscallStopsOnlyWhenTheHandlerNeverReturns s
    rcases hends with hnext | hfault
    · exact .inl hnext
    · exact .inr ⟨(hstop.1 hfault).1, hfault⟩

theorem executeWord_answers (w : Word) (s : State) : Answers s (executeWord w s) := by
  cases hd : decodeWord w with
  | error e => exact .inl ⟨_, executeWord_of_error hd s⟩
  | ok i =>
    rw [executeWord_of_ok hd]
    exact (exec_answers i _).imp_right fun ⟨hhandler, e⟩ => ⟨by simpa using hhandler, e⟩

theorem Answers.advanceUnlessHalted {s : State} {o : Host.Outcome State Fault Refusal} (h : Answers s o) :
    Answers s (advanceUnlessHalted o) := by
  rcases h with ⟨t, rfl⟩ | ⟨hhandler, rfl⟩
  · exact .inl ⟨_, rfl⟩
  · exact .inr ⟨hhandler, rfl⟩

/-- Settles O37: a halted core and a faulting fetch have a next state, and a fetched word answers as its instruction
does. -/
theorem stepAlwaysAnswers : Obligations.StepAlwaysAnswers := by
  unfold Obligations.StepAlwaysAnswers
  intro s ht
  cases hs : s.halted with
  | true => exact .inl ⟨s, step_of_halted ht hs⟩
  | false =>
    cases hf : s.fetch with
    | error f => exact .inl ⟨_, step_of_fetch_error ht hs hf⟩
    | ok r =>
      obtain ⟨w, u⟩ := r
      have hfetches : Fetches s w u := ⟨ht, hs, hf⟩
      rw [step_of_fetches hfetches, ← hfetches.coreKept.handler]
      exact (executeWord_answers w u).advanceUnlessHalted

end Sys2Proof.Machine

/-! The debug and inspection port (60_exceptions.md R144 to R148): registers by index, `pc`, the raw cells, the view of
the state, and calls that fault. -/

namespace Sys2Proof.Machine

/-! ### Registers by index (R144) -/

theorem registerIndex_outside {index : Int} (h : ¬ (0 ≤ index ∧ index ≤ 15)) :
    registerIndex index = .error .invalidRegisterIndex :=
  if_neg (by omega)

theorem registerIndex_val (r : RegIdx) : registerIndex (r.val : Int) = .ok r := by
  have hr := r.isLt
  rw [registerIndex, if_pos (by omega)]
  exact congrArg Except.ok (Fin.ext (Nat.mod_eq_of_lt hr))

/-- A direct call that faults leaves the state as it was (R148, decision D11). -/
theorem State.afterCall_of_error {s : State} {c : DirectCall} {f : FaultKind} (h : s.directCall c = .error f) :
    s.afterCall c = s := by
  simp only [State.afterCall, h]

/-- Settles O52: an index of a register names that register, and the write is one register write. -/
theorem debugPortReachesEachRegister : Obligations.DebugPortReachesEachRegister := by
  unfold Obligations.DebugPortReachesEachRegister
  refine fun s index v => ⟨fun hout => ?_, ?_⟩
  · have hget : s.directCall (.get index) = .error .invalidRegisterIndex :=
      exceptMap_error.2 (registerIndex_outside hout)
    have hset : s.directCall (.set index v) = .error .invalidRegisterIndex :=
      exceptMap_error.2 (registerIndex_outside hout)
    exact ⟨hget, hset, State.afterCall_of_error hset⟩
  · rintro r rfl
    simp only [State.directCall, registerIndex_val]
    exact ⟨rfl, _, rfl, State.getReg_setReg_self s r v, s.setReg_frame r v⟩

/-! ### `pc` (R145) -/

/-- Settles O53, by the range check; an address of the range is its own 16-bit value. -/
theorem debugPortSetsPc : Obligations.DebugPortSetsPc := by
  unfold Obligations.DebugPortSetsPc
  refine fun s address => ⟨rfl, fun hout => if_pos ?_, fun hlo hhi => ⟨_, if_neg ?_, ?_, rfl⟩⟩
  · simp only [Config.memSize]; omega
  · simp only [Config.memSize]; omega
  · rw [BitVec.toNat_ofNat, Nat.mod_eq_of_lt (by omega), Int.toNat_of_nonneg hlo]

/-! ### Raw cells (R147) -/

theorem Memory.readBytes_length (m : Memory) (a n : Nat) : (m.readBytes a n).length = n := by
  induction n generalizing a with
  | zero => rfl
  | succ n ih => simp only [Memory.readBytes, List.length_cons, ih]

theorem Memory.getElem_readBytes (m : Memory) (a n i : Nat) (h : i < (m.readBytes a n).length) :
    (m.readBytes a n)[i] = m.read (a + i) := by
  induction n generalizing a i with
  | zero => cases h
  | succ n ih =>
    cases i with
    | zero => rfl
    | succ i =>
      rw [show a + (i + 1) = a + 1 + i by omega]
      exact ih (a + 1) i (Nat.lt_of_succ_lt_succ h)

theorem busDump_outside (m : Memory) {start length : Nat} (h : 0x10000 ≤ start ∨ 0x10000 < start + length) :
    busDump m start length = .error .addressOutOfBounds := by
  by_cases hstart : start < 0x10000
  · rw [busDump, byteAddress_ok.2 ⟨rfl, hstart⟩]
    exact if_pos (by simp only [Config.memSize]; omega)
  · rw [busDump, byteAddress_outside (by omega)]

theorem busDump_inside (m : Memory) {start length : Nat} (hstart : start < 0x10000)
    (hfits : start + length ≤ 0x10000) : busDump m start length = .ok (m.readBytes start length) := by
  rw [busDump, byteAddress_ok.2 ⟨rfl, hstart⟩]
  exact if_neg (not_lt.2 hfits)

/-- Settles O54, by the two bounds checks and the cells that the dump lists. -/
theorem dumpMemoryReadsTheBackingStore : Obligations.DumpMemoryReadsTheBackingStore := by
  unfold Obligations.DumpMemoryReadsTheBackingStore
  refine fun s start length => ⟨fun hout => exceptMap_error.2 (busDump_outside s.ram hout), fun hstart hfits => ?_⟩
  refine ⟨s.ram.readBytes start length, ?_, s.ram.readBytes_length start length, s.ram.getElem_readBytes start length⟩
  simp only [State.directCall, busDump_inside s.ram hstart hfits]
  rfl

/-! ### Faults returned to the host (R148) -/

/-- Settles O56: the host keeps its state when the call, or `set_pc`, returns a fault. -/
theorem directCallFaultsChangeNothing : Obligations.DirectCallFaultsChangeNothing := by
  unfold Obligations.DirectCallFaultsChangeNothing
  refine fun s ht => ⟨fun c f h => ?_, fun address f h => ?_⟩
  · simp only [hostApply, ht, State.afterCall_of_error h, if_true]
  · simp only [hostApply, ht, h, if_true]

/-! ### The view of the state (R146, 10_state.md R22) -/

/-- `halted` decides first, then `running`. -/
theorem State.runState_iff (s : State) :
    (s.runState = .halted ↔ s.halted = true) ∧
      (s.runState = .running ↔ s.halted = false ∧ s.running = true) ∧
      (s.runState = .stopped ↔ s.halted = false ∧ s.running = false) := by
  unfold State.runState
  cases s.halted with
  | true => simp
  | false => cases s.running <;> simp

/-- Settles O60: the view is a copy of the fields, and the run state is read off the two flags. -/
theorem inspectionViewShowsTheState : Obligations.InspectionViewShowsTheState := by
  unfold Obligations.InspectionViewShowsTheState
  intro s
  obtain ⟨hhalted, hrunning, hstopped⟩ := s.runState_iff
  refine ⟨rfl, fun _ => rfl, rfl, hhalted, hrunning, hstopped, fun ht => ?_⟩
  simp only [hostApply, ht, if_true, and_self]

end Sys2Proof.Machine

/-! Creation, reset, the loader and the clear of memory (70_reset_and_hazards.md R150 to R155), and what the model
refuses (decisions D7, D20). -/

namespace Sys2Proof.Machine

/-! ### Creation and the reset input (R150 to R152) -/

/-- Reset of a fresh machine changes nothing, so creation has the values that reset leaves (decision D25). -/
theorem State.hostReset_reset : State.reset.hostReset = State.reset := rfl

@[simp] theorem State.hostReset_runState (s : State) : s.hostReset.runState = .stopped := rfl

/-- Settles O49: the machine after creation is what a reset leaves of it, and its memory lists no cell. -/
theorem creationState : Obligations.CreationState := by
  unfold Obligations.CreationState
  rw [← State.hostReset_reset]
  exact ⟨State.reset.hostReset_getReg, rfl, rfl, rfl, State.reset.hostReset_runState, rfl, rfl, Memory.read_nil⟩

/-- Settles O50: the reset input is one update, of the registers, `pc`, the two flags and the retained fault. -/
theorem resetInputClearsTheProgramState : Obligations.ResetInputClearsTheProgramState := by
  unfold Obligations.ResetInputClearsTheProgramState
  intro s ht
  refine ⟨s.hostReset, ?_, s.hostReset_getReg, rfl, rfl, rfl, s.hostReset_runState, rfl, rfl, rfl, ?_, rfl, rfl⟩
  · simp only [hostApply, ht, if_true]
  · exact ⟨rfl, rfl, rfl, rfl, rfl⟩

/-! ### The clear of memory (R153) -/

/-- Settles O55: the memory that lists no cell reads zero everywhere, and `ram` is the one field updated. -/
theorem clearMemoryZeroesEveryCell : Obligations.ClearMemoryZeroesEveryCell := by
  unfold Obligations.ClearMemoryZeroesEveryCell
  intro s ht
  refine ⟨s.clearMemory, ?_, Memory.read_nil, Memory.wf_nil, fun _ _ => rfl, ?_, ?_, rfl, rfl⟩
  · simp only [hostApply, ht, if_true]
  · exact ⟨rfl, rfl, rfl, rfl, rfl⟩
  · exact ⟨rfl, rfl, rfl, rfl, rfl⟩

/-! ### The loader (R154, R155) -/

section
variable {s : State} {bytes : List Byte} {start : Addr}

theorem State.loadProgram_of_ok {m : Memory} (h : busLoadBulk s.ram (coreAddress start) bytes = .ok m) :
    s.loadProgram bytes start = { s with ram := m, pc := start } := by
  simp only [State.loadProgram, h]

theorem State.loadProgram_of_error {f : FaultKind} (h : busLoadBulk s.ram (coreAddress start) bytes = .error f) :
    s.loadProgram bytes start = s.faultEntry f := by
  simp only [State.loadProgram, h]

theorem hostApply_loadProgram (ht : tableWellFormed s.mmioTable = true) :
    hostApply (.loadProgram bytes start) s = .next (s.loadProgram bytes start) := by
  simp only [hostApply, ht, if_true]

end

/-- Settles O51: the load is the bulk copy of O9 at an address that is in range, so whether it fits is all that is
left to decide. -/
theorem loadProgramPlacesTheBytes : Obligations.LoadProgramPlacesTheBytes := by
  unfold Obligations.LoadProgramPlacesTheBytes
  intro s bytes start hs
  have hlo : 0 ≤ coreAddress start := Int.natCast_nonneg _
  have hhi : coreAddress start < 0x10000 := Int.ofNat_lt.2 start.isLt
  obtain ⟨-, hlong, hfits⟩ := bulkLoadCopiesAllOrNothing s.ram (coreAddress start) bytes hs.ram_canonical
  rw [hostApply_loadProgram hs.table_wellFormed]
  refine ⟨fun hle => ?_, fun hlt => ?_⟩
  · obtain ⟨m, hm, -, hinside, houtside⟩ := hfits hlo hhi (by unfold coreAddress; omega)
    refine ⟨_, congrArg _ (State.loadProgram_of_ok hm), rfl, hinside, houtside, fun _ _ => rfl, ?_, ⟨rfl, rfl⟩,
      rfl, rfl, rfl, rfl⟩
    exact ⟨rfl, rfl, rfl, rfl, rfl⟩
  · rw [State.loadProgram_of_error (hlong hlo hhi (by unfold coreAddress; omega))]
    rfl

/-! ### What the model refuses (decisions D7, D20) -/

theorem Answers.ne_refused {s : State} {o : Host.Outcome State Fault Refusal} (h : Answers s o) (r : Refusal) :
    o ≠ .refused r := by
  rcases h with ⟨t, rfl⟩ | ⟨-, rfl⟩
  · exact nofun
  · exact nofun

theorem step_ne_refused {s : State} (ht : tableWellFormed s.mmioTable = true) (r : Refusal) : step s ≠ .refused r :=
  Answers.ne_refused (stepAlwaysAnswers s ht) r

theorem step_refused_iff {s : State} : (∃ r, step s = .refused r) ↔ tableWellFormed s.mmioTable = false := by
  refine ⟨fun ⟨r, hr⟩ => ?_, fun h => ⟨_, step_of_illFormed h⟩⟩
  by_contra ht
  exact step_ne_refused (Bool.eq_true_of_not_eq_false ht) r hr

/-- The loop steps on the one table throughout, so no step of it is refused. -/
theorem runLoop_ne_refused {budget n : Nat} {s : State} (ht : tableWellFormed s.mmioTable = true) (r : Refusal) :
    runLoop budget n s ≠ .refused r := by
  induction budget generalizing n s with
  | zero => exact nofun
  | succ budget ih =>
    unfold runLoop
    split
    · exact nofun
    · split
      · rename_i t hstep
        split
        · exact ih ((step_keepsConfig hstep).1 ▸ ht)
        · exact nofun
      · exact nofun
      · exact absurd ‹_› (step_ne_refused ht _)

theorem State.run_ne_refused {s : State} (ht : tableWellFormed s.mmioTable = true) (maxSteps : Nat) (r : Refusal) :
    s.run maxSteps ≠ .refused r := by
  unfold State.run
  split
  · exact nofun
  · exact nofun
  · rename_i hloop
    exact absurd hloop (runLoop_ne_refused (s := { s with running := true }) ht _)

theorem State.executeDirect_refused_iff {s : State} {w : Word} :
    (∃ r, s.executeDirect w = .refused r) ↔ s.halted = true := by
  unfold State.executeDirect
  cases s.halted with
  | true => simp
  | false => simpa using (executeWord_answers w s).ne_refused

theorem hostApply_of_illFormed {op : HostOp} {s : State} (h : tableWellFormed s.mmioTable = false) :
    hostApply op s = .refused .illFormedMmioTable := by
  simp [hostApply, h]

/-- On a well-formed table every operation but a direct `execute` answers. -/
theorem hostApply_ne_refused {op : HostOp} {s : State} (ht : tableWellFormed s.mmioTable = true)
    (hop : ∀ w, op ≠ .execute w) (r : Refusal) : hostApply op s ≠ .refused r := by
  unfold hostApply
  rw [if_pos ht]
  cases op with
  | step => exact step_ne_refused ht r
  | run maxSteps =>
    simp only
    split
    · exact nofun
    · exact nofun
    · exact absurd ‹_› (s.run_ne_refused ht maxSteps _)
  | execute w => exact absurd rfl (hop w)
  | setPc address => simp only; split <;> exact nofun
  | reset | loadProgram _ _ | clearMemory | call _ | getPc | getState | setSyscallHandler _ | attachTrace _ =>
    exact nofun

theorem hostApply_execute {s : State} (ht : tableWellFormed s.mmioTable = true) (w : Word) :
    hostApply (.execute w) s = s.executeDirect w := by
  simp only [hostApply, ht, if_true]

/-- Settles O57: on a well-formed table a step, a `run` (by induction on its budget) and every operation but a direct
`execute` answer, and a direct `execute` is refused exactly on a halted core. -/
theorem refusalsAreExactlyTheTwoOfTheSpec : Obligations.RefusalsAreExactlyTheTwoOfTheSpec := by
  unfold Obligations.RefusalsAreExactlyTheTwoOfTheSpec
  refine ⟨fun _ => step_refused_iff, fun op s => ?_⟩
  cases ht : tableWellFormed s.mmioTable with
  | false => exact ⟨fun _ => .inl rfl, fun _ => ⟨_, hostApply_of_illFormed ht⟩⟩
  | true =>
    by_cases hop : ∃ w, op = .execute w
    · obtain ⟨w, rfl⟩ := hop
      rw [hostApply_execute ht, State.executeDirect_refused_iff]
      simp
    · have hne : ∀ r, hostApply op s ≠ .refused r := hostApply_ne_refused ht fun w hw => hop ⟨w, hw⟩
      simp [hne, hop]

end Sys2Proof.Machine
